-- ==== Sys2Proof/Word.lean ====
section
/-! DEFINITION. The two data widths of the LC-3-VM core (spec/00_scope.md R6, R8): the 16-bit Word, which is the
only unit of memory, registers, addresses and instructions (R33, R34, R70), and the 8-bit character of the
console streams (spec/43_trap.md R181). Every operation on them stands in a file of Machine/ or in Decode.lean. -/

namespace Sys2Proof

/-- R8: "a 16-bit unsigned integer". All sums of Words are `BitVec` sums, that is modulo 2^16 (R105). -/
abbrev Word := BitVec 16

/-- R181: "A character is one 8-bit byte." Bytes exist in the console streams only; memory has none (R34, R41). -/
abbrev Byte := BitVec 8

end Sys2Proof
end

