-- ==== Sys2Proof/Syntax.lean ====
section
/-! DEFINITION. The instructions of the LC-3-VM core: one constructor per row of spec/opcode_table.json, in the
table's order. Operand widths are those of spec/30_encoding.md R74 and R75; unused bits are no operands (R77),
except the low twelve bits of RTI and RES, which the condition they raise records (R178, R179). -/

namespace Sys2Proof

/-- R20: the eight general registers. -/
inductive Reg where
  | r0 | r1 | r2 | r3 | r4 | r5 | r6 | r7
  deriving DecidableEq, Repr

/-- The 25 rows of the opcode table: 19 base rows and the six TRAP vectors that have rows of their own (R82). -/
inductive Instr where
  /-- BR, format D, R120: the three cond bits n (tests NEG), z (tests ZRO), p (tests POS) and the offset. -/
  | br (n z p : Bool) (off : BitVec 9)
  /-- ADD, register form, format A, R100. -/
  | addReg (dst src1 src2 : Reg)
  /-- ADD, immediate form, format B, R101. -/
  | addImm (dst src1 : Reg) (imm : BitVec 5)
  /-- LD, format E, R140. -/
  | ld (dst : Reg) (off : BitVec 9)
  /-- ST, format E, R144. -/
  | st (src : Reg) (off : BitVec 9)
  /-- JSR, format H, R122. -/
  | jsr (off : BitVec 11)
  /-- JSRR, format I, R123. -/
  | jsrr (base : Reg)
  /-- AND, register form, format A, R102. -/
  | andReg (dst src1 src2 : Reg)
  /-- AND, immediate form, format B, R103. -/
  | andImm (dst src1 : Reg) (imm : BitVec 5)
  /-- LDR, format F, R142. -/
  | ldr (dst base : Reg) (off : BitVec 6)
  /-- STR, format F, R146. -/
  | str (src base : Reg) (off : BitVec 6)
  /-- RTI, format K, R178: `low` is ir[11:0], which `InvalidOpcode(ir)` records. -/
  | rti (low : BitVec 12)
  /-- NOT, format C, R104. -/
  | not (dst src : Reg)
  /-- LDI, format E, R141. -/
  | ldi (dst : Reg) (off : BitVec 9)
  /-- STI, format E, R145. -/
  | sti (src : Reg) (off : BitVec 9)
  /-- JMP, format G, R121. -/
  | jmp (base : Reg)
  /-- RES, format K, R179: `low` is ir[11:0], which `InvalidOpcode(ir)` records. -/
  | res (low : BitVec 12)
  /-- LEA, format E, R143. -/
  | lea (dst : Reg) (off : BitVec 9)
  /-- TRAP, format J, R170: a vector that has no row of its own (see WellFormed.lean). -/
  | trap (vect : BitVec 8)
  /-- GETC, TRAP vector 0x20, R171. -/
  | getc
  /-- OUT, TRAP vector 0x21, R172. -/
  | out
  /-- PUTS, TRAP vector 0x22, R173. -/
  | puts
  /-- IN, TRAP vector 0x23, R174. -/
  | inChar
  /-- PUTSP, TRAP vector 0x24, R175. -/
  | putsp
  /-- HALT, TRAP vector 0x25, R176. -/
  | halt
  deriving DecidableEq, Repr

end Sys2Proof
end

