-- ==== Sys2Proof/WellFormed.lean ====
section
/-! DEFINITION. Which terms of `Instr` stand for an instruction of their own. Every operand carries its width in its
type, so one check is left: the six vectors 0x20 to 0x25 have rows, and constructors, of their own in
spec/opcode_table.json ("the six rows below refine this row"), so `trap` with one of them is the same instruction
spelled a second time. -/

namespace Sys2Proof

/-- R79, R170: the six vectors the Trap Dispatcher recognises. -/
def routineVectors : List (BitVec 8) := [0x20, 0x21, 0x22, 0x23, 0x24, 0x25]

/-- The well-formed instructions: the terms the decoder can answer (Decode.lean). -/
def Instr.wellFormed : Instr → Bool
  | .br _ _ _ _ => true
  | .addReg _ _ _ => true
  | .addImm _ _ _ => true
  | .ld _ _ => true
  | .st _ _ => true
  | .jsr _ => true
  | .jsrr _ => true
  | .andReg _ _ _ => true
  | .andImm _ _ _ => true
  | .ldr _ _ _ => true
  | .str _ _ _ => true
  | .rti _ => true
  | .not _ _ => true
  | .ldi _ _ => true
  | .sti _ _ => true
  | .jmp _ => true
  | .res _ => true
  | .lea _ _ => true
  | .trap v => !routineVectors.contains v
  | .getc => true
  | .out => true
  | .puts => true
  | .inChar => true
  | .putsp => true
  | .halt => true

end Sys2Proof
end

