-- ==== Sys2Proof/Decode.lean ====
section
/-! DEFINITION. The decoder (spec/30_encoding.md R70 to R82), the encoder written from the same format tables, and the
rows of spec/opcode_table.json. Opcode numbers and field positions are the named constants below, each written once
(R6: "a model should take each gk value as a named constant so that it can be changed in one place"); decoder, encoder,
rows and used bits are all built from them. The decoder is total: "No Word is left without an outcome" (R82). -/

namespace Sys2Proof

/-! The opcode numbers (R72). Those of RTI and RES are the source's; the other fourteen are PRESUMED (decision D1, log
entry 7). -/

namespace Encoding

@[simp] abbrev opBr : BitVec 4 := 0b0000
@[simp] abbrev opAdd : BitVec 4 := 0b0001
@[simp] abbrev opLd : BitVec 4 := 0b0010
@[simp] abbrev opSt : BitVec 4 := 0b0011
/-- JSR and JSRR. -/
@[simp] abbrev opJsr : BitVec 4 := 0b0100
@[simp] abbrev opAnd : BitVec 4 := 0b0101
@[simp] abbrev opLdr : BitVec 4 := 0b0110
@[simp] abbrev opStr : BitVec 4 := 0b0111
@[simp] abbrev opRti : BitVec 4 := 0b1000
@[simp] abbrev opNot : BitVec 4 := 0b1001
@[simp] abbrev opLdi : BitVec 4 := 0b1010
@[simp] abbrev opSti : BitVec 4 := 0b1011
@[simp] abbrev opJmp : BitVec 4 := 0b1100
@[simp] abbrev opRes : BitVec 4 := 0b1101
@[simp] abbrev opLea : BitVec 4 := 0b1110
@[simp] abbrev opTrap : BitVec 4 := 0b1111

/-! Where each field's lowest bit stands in the Word (R73). The places of the opcode, of the trap vector and of the low
bits of RTI and RES follow from the source; the others are PRESUMED (decision D2, log entry 7). -/

/-- ir[15:12]. -/
@[simp] abbrev opcodeLo : Nat := 12
/-- ir[11:9]: dst of formats A, B, C, E and F; src of ST, STI and STR. -/
@[simp] abbrev highLo : Nat := 9
/-- ir[8:6]: src1 of formats A and B, src of C, base of F, G and I. -/
@[simp] abbrev midLo : Nat := 6
/-- ir[2:0]: src2 of format A. -/
@[simp] abbrev lowLo : Nat := 0
/-- ir[11], the cond bit that tests NEG. -/
@[simp] abbrev nBit : Nat := 11
/-- ir[10], the cond bit that tests ZRO. -/
@[simp] abbrev zBit : Nat := 10
/-- ir[9], the cond bit that tests POS. -/
@[simp] abbrev pBit : Nat := 9
/-- ir[5], the imm-flag of ADD and AND. -/
@[simp] abbrev immFlagBit : Nat := 5
/-- ir[11], the long-flag of JSR and JSRR. -/
@[simp] abbrev longFlagBit : Nat := 11
/-- ir[4:0]. -/
@[simp] abbrev imm5Lo : Nat := 0
/-- ir[5:0]. -/
@[simp] abbrev offset6Lo : Nat := 0
/-- ir[8:0]. -/
@[simp] abbrev offset9Lo : Nat := 0
/-- ir[10:0]. -/
@[simp] abbrev offset11Lo : Nat := 0
/-- ir[7:0], "the low 8 bits of the instruction". -/
@[simp] abbrev trapvectLo : Nat := 0
/-- ir[11:0] of RTI and RES, kept for the condition they raise (R178, R179). -/
@[simp] abbrev low12Lo : Nat := 0

end Encoding

open Encoding

/-! Fields of an instruction Word (R73). -/

/-- R75: the 3-bit selector with value i selects Ri. -/
def Reg.ofBits (b : BitVec 3) : Reg :=
  match b.getLsbD 2, b.getLsbD 1, b.getLsbD 0 with
  | false, false, false => .r0
  | false, false, true => .r1
  | false, true, false => .r2
  | false, true, true => .r3
  | true, false, false => .r4
  | true, false, true => .r5
  | true, true, false => .r6
  | true, true, true => .r7

/-- R75: the selector of Ri is the number i. -/
def Reg.toBits : Reg → BitVec 3
  | .r0 => 0b000
  | .r1 => 0b001
  | .r2 => 0b010
  | .r3 => 0b011
  | .r4 => 0b100
  | .r5 => 0b101
  | .r6 => 0b110
  | .r7 => 0b111

/-- ir[15:12] (R71). -/
def fieldOpcode (ir : Word) : BitVec 4 := ir.extractLsb' opcodeLo 4

/-- dst, or src of a store. -/
def fieldHigh (ir : Word) : Reg := Reg.ofBits (ir.extractLsb' highLo 3)

/-- src1, src of NOT, base. -/
def fieldMid (ir : Word) : Reg := Reg.ofBits (ir.extractLsb' midLo 3)

/-- src2. -/
def fieldLow (ir : Word) : Reg := Reg.ofBits (ir.extractLsb' lowLo 3)

/-- R74. -/
def fieldImm5 (ir : Word) : BitVec 5 := ir.extractLsb' imm5Lo 5

/-- R74. -/
def fieldOffset6 (ir : Word) : BitVec 6 := ir.extractLsb' offset6Lo 6

/-- R74. -/
def fieldOffset9 (ir : Word) : BitVec 9 := ir.extractLsb' offset9Lo 9

/-- R74. -/
def fieldOffset11 (ir : Word) : BitVec 11 := ir.extractLsb' offset11Lo 11

/-- R73 format J. -/
def fieldTrapvect8 (ir : Word) : BitVec 8 := ir.extractLsb' trapvectLo 8

/-- R178, R179. -/
def fieldLow12 (ir : Word) : BitVec 12 := ir.extractLsb' low12Lo 12

/-! The decoder. -/

/-- R79, R170: opcode 1111 divides by vector into six routines and the rest. -/
def decodeTrap (v : BitVec 8) : Instr :=
  if v = 0x20 then .getc
  else if v = 0x21 then .out
  else if v = 0x22 then .puts
  else if v = 0x23 then .inChar
  else if v = 0x24 then .putsp
  else if v = 0x25 then .halt
  else .trap v

/-- R71, R72, R76, R82: the decoder looks at ir[15:12], and inside ADD and AND at the imm-flag, inside 0100 at the
long-flag. The sixteen opcodes are all the values of four bits (Laws/Decode.lean `opcodes_exhaustive`), so the last
branch is TRAP's alone. -/
def decode (ir : Word) : Instr :=
  if fieldOpcode ir = opBr then
    .br (ir.getLsbD nBit) (ir.getLsbD zBit) (ir.getLsbD pBit) (fieldOffset9 ir)
  else if fieldOpcode ir = opAdd then
    if ir.getLsbD immFlagBit then .addImm (fieldHigh ir) (fieldMid ir) (fieldImm5 ir)
    else .addReg (fieldHigh ir) (fieldMid ir) (fieldLow ir)
  else if fieldOpcode ir = opLd then .ld (fieldHigh ir) (fieldOffset9 ir)
  else if fieldOpcode ir = opSt then .st (fieldHigh ir) (fieldOffset9 ir)
  else if fieldOpcode ir = opJsr then
    if ir.getLsbD longFlagBit then .jsr (fieldOffset11 ir) else .jsrr (fieldMid ir)
  else if fieldOpcode ir = opAnd then
    if ir.getLsbD immFlagBit then .andImm (fieldHigh ir) (fieldMid ir) (fieldImm5 ir)
    else .andReg (fieldHigh ir) (fieldMid ir) (fieldLow ir)
  else if fieldOpcode ir = opLdr then .ldr (fieldHigh ir) (fieldMid ir) (fieldOffset6 ir)
  else if fieldOpcode ir = opStr then .str (fieldHigh ir) (fieldMid ir) (fieldOffset6 ir)
  else if fieldOpcode ir = opRti then .rti (fieldLow12 ir)
  else if fieldOpcode ir = opNot then .not (fieldHigh ir) (fieldMid ir)
  else if fieldOpcode ir = opLdi then .ldi (fieldHigh ir) (fieldOffset9 ir)
  else if fieldOpcode ir = opSti then .sti (fieldHigh ir) (fieldOffset9 ir)
  else if fieldOpcode ir = opJmp then .jmp (fieldMid ir)
  else if fieldOpcode ir = opRes then .res (fieldLow12 ir)
  else if fieldOpcode ir = opLea then .lea (fieldHigh ir) (fieldOffset9 ir)
  else decodeTrap (fieldTrapvect8 ir)

/-- Why a sequence of Words gives no instruction. No Word is rejected (R82), so the one reason is that there is none. -/
inductive DecodeError where
  /-- The sequence is empty: an instruction is "exactly one Word" (R70). -/
  | noWord
  deriving DecidableEq, Repr

/-- R70: an instruction is the first Word of a sequence, and the rest is left. -/
def decodeStream : List Word → Except DecodeError (Instr × List Word)
  | [] => .error .noWord
  | ir :: rest => .ok (decode ir, rest)

/-- The Word whose bits are `w`, for an instruction to which spec/opcode_table.json gives `nbits` bits: none if that is
more than one Word (R70) or if `w` has more bits. -/
def tableWord (nbits w : Nat) : Option Word :=
  if nbits ≤ 16 ∧ w < 2 ^ nbits then some (BitVec.ofNat 16 w) else none

/-- The instruction the decoder reads from an instruction whose bits are `w`, numbered as the opcode table numbers
them (bit 0 the least significant of the one Word, R8, R70). -/
def decodeTableWord (nbits w : Nat) : Option Instr := (tableWord nbits w).map decode

/-! Building Words and masks from fields. -/

/-- The Word that holds `v` with its lowest bit at `lo`, and zeros elsewhere. -/
def place {n : Nat} (lo : Nat) (v : BitVec n) : Word := v.zeroExtend 16 <<< lo

/-- The mask of a field of `n` bits at `lo`. -/
def fieldMask (lo n : Nat) : Word := place lo (BitVec.allOnes n)

/-- The mask of ir[15:12]. -/
def opcodeMask : Word := fieldMask opcodeLo 4

/-- R73, R77: the bits of an instruction's Word that its format does not mark "unused". RTI and RES use them all here,
since the Word is kept in `halt_reason` (R178, R179). -/
def Instr.usedBits : Instr → Word
  | .br _ _ _ _ =>
    opcodeMask ||| fieldMask nBit 1 ||| fieldMask zBit 1 ||| fieldMask pBit 1 ||| fieldMask offset9Lo 9
  | .addReg _ _ _ =>
    opcodeMask ||| fieldMask highLo 3 ||| fieldMask midLo 3 ||| fieldMask immFlagBit 1 ||| fieldMask lowLo 3
  | .addImm _ _ _ =>
    opcodeMask ||| fieldMask highLo 3 ||| fieldMask midLo 3 ||| fieldMask immFlagBit 1 ||| fieldMask imm5Lo 5
  | .ld _ _ => opcodeMask ||| fieldMask highLo 3 ||| fieldMask offset9Lo 9
  | .st _ _ => opcodeMask ||| fieldMask highLo 3 ||| fieldMask offset9Lo 9
  | .jsr _ => opcodeMask ||| fieldMask longFlagBit 1 ||| fieldMask offset11Lo 11
  | .jsrr _ => opcodeMask ||| fieldMask longFlagBit 1 ||| fieldMask midLo 3
  | .andReg _ _ _ =>
    opcodeMask ||| fieldMask highLo 3 ||| fieldMask midLo 3 ||| fieldMask immFlagBit 1 ||| fieldMask lowLo 3
  | .andImm _ _ _ =>
    opcodeMask ||| fieldMask highLo 3 ||| fieldMask midLo 3 ||| fieldMask immFlagBit 1 ||| fieldMask imm5Lo 5
  | .ldr _ _ _ => opcodeMask ||| fieldMask highLo 3 ||| fieldMask midLo 3 ||| fieldMask offset6Lo 6
  | .str _ _ _ => opcodeMask ||| fieldMask highLo 3 ||| fieldMask midLo 3 ||| fieldMask offset6Lo 6
  | .rti _ => opcodeMask ||| fieldMask low12Lo 12
  | .not _ _ => opcodeMask ||| fieldMask highLo 3 ||| fieldMask midLo 3
  | .ldi _ _ => opcodeMask ||| fieldMask highLo 3 ||| fieldMask offset9Lo 9
  | .sti _ _ => opcodeMask ||| fieldMask highLo 3 ||| fieldMask offset9Lo 9
  | .jmp _ => opcodeMask ||| fieldMask midLo 3
  | .res _ => opcodeMask ||| fieldMask low12Lo 12
  | .lea _ _ => opcodeMask ||| fieldMask highLo 3 ||| fieldMask offset9Lo 9
  | .trap _ => opcodeMask ||| fieldMask trapvectLo 8
  | .getc => opcodeMask ||| fieldMask trapvectLo 8
  | .out => opcodeMask ||| fieldMask trapvectLo 8
  | .puts => opcodeMask ||| fieldMask trapvectLo 8
  | .inChar => opcodeMask ||| fieldMask trapvectLo 8
  | .putsp => opcodeMask ||| fieldMask trapvectLo 8
  | .halt => opcodeMask ||| fieldMask trapvectLo 8

/-! The encoder: the formats A to K of R73. The unused bits have the value "the standard assembler emits there": ones in
NOT, zeros in the others. -/

/-- Format A: opcode, dst, src1, imm-flag 0, src2. -/
def encodeFormatA (opcode : BitVec 4) (dst src1 src2 : Reg) : Word :=
  place opcodeLo opcode ||| place highLo dst.toBits ||| place midLo src1.toBits ||| place immFlagBit 0#1 |||
    place lowLo src2.toBits

/-- Format B: opcode, dst, src1, imm-flag 1, imm5. -/
def encodeFormatB (opcode : BitVec 4) (dst src1 : Reg) (imm : BitVec 5) : Word :=
  place opcodeLo opcode ||| place highLo dst.toBits ||| place midLo src1.toBits ||| place immFlagBit 1#1 |||
    place imm5Lo imm

/-- Format C: opcode, dst, src, unused bits all ones. -/
def encodeFormatC (opcode : BitVec 4) (dst src : Reg) : Word :=
  place opcodeLo opcode ||| place highLo dst.toBits ||| place midLo src.toBits ||| ~~~ (Instr.not dst src).usedBits

/-- Format D: opcode, n, z, p, pc_offset9. -/
def encodeFormatD (opcode : BitVec 4) (n z p : Bool) (off : BitVec 9) : Word :=
  place opcodeLo opcode ||| place nBit (BitVec.ofBool n) ||| place zBit (BitVec.ofBool z) |||
    place pBit (BitVec.ofBool p) ||| place offset9Lo off

/-- Format E: opcode, dst or src, pc_offset9. -/
def encodeFormatE (opcode : BitVec 4) (r : Reg) (off : BitVec 9) : Word :=
  place opcodeLo opcode ||| place highLo r.toBits ||| place offset9Lo off

/-- Format F: opcode, dst or src, base, offset6. -/
def encodeFormatF (opcode : BitVec 4) (r base : Reg) (off : BitVec 6) : Word :=
  place opcodeLo opcode ||| place highLo r.toBits ||| place midLo base.toBits ||| place offset6Lo off

/-- Format G: opcode, base. -/
def encodeFormatG (opcode : BitVec 4) (base : Reg) : Word := place opcodeLo opcode ||| place midLo base.toBits

/-- Format H: opcode, long-flag 1, pc_offset11. -/
def encodeFormatH (opcode : BitVec 4) (off : BitVec 11) : Word :=
  place opcodeLo opcode ||| place longFlagBit 1#1 ||| place offset11Lo off

/-- Format I: opcode, long-flag 0, base. -/
def encodeFormatI (opcode : BitVec 4) (base : Reg) : Word :=
  place opcodeLo opcode ||| place longFlagBit 0#1 ||| place midLo base.toBits

/-- Format J: opcode, trapvect8. -/
def encodeFormatJ (opcode : BitVec 4) (v : BitVec 8) : Word := place opcodeLo opcode ||| place trapvectLo v

/-- Format K: opcode, the low twelve bits. -/
def encodeFormatK (opcode : BitVec 4) (low : BitVec 12) : Word := place opcodeLo opcode ||| place low12Lo low

/-- The Word of an instruction. -/
def encode : Instr → Word
  | .br n z p off => encodeFormatD opBr n z p off
  | .addReg dst src1 src2 => encodeFormatA opAdd dst src1 src2
  | .addImm dst src1 imm => encodeFormatB opAdd dst src1 imm
  | .ld dst off => encodeFormatE opLd dst off
  | .st src off => encodeFormatE opSt src off
  | .jsr off => encodeFormatH opJsr off
  | .jsrr base => encodeFormatI opJsr base
  | .andReg dst src1 src2 => encodeFormatA opAnd dst src1 src2
  | .andImm dst src1 imm => encodeFormatB opAnd dst src1 imm
  | .ldr dst base off => encodeFormatF opLdr dst base off
  | .str src base off => encodeFormatF opStr src base off
  | .rti low => encodeFormatK opRti low
  | .not dst src => encodeFormatC opNot dst src
  | .ldi dst off => encodeFormatE opLdi dst off
  | .sti src off => encodeFormatE opSti src off
  | .jmp base => encodeFormatG opJmp base
  | .res low => encodeFormatK opRes low
  | .lea dst off => encodeFormatE opLea dst off
  | .trap v => encodeFormatJ opTrap v
  | .getc => encodeFormatJ opTrap 0x20
  | .out => encodeFormatJ opTrap 0x21
  | .puts => encodeFormatJ opTrap 0x22
  | .inChar => encodeFormatJ opTrap 0x23
  | .putsp => encodeFormatJ opTrap 0x24
  | .halt => encodeFormatJ opTrap 0x25

/-- R70: the words of an instruction are one Word. -/
def encodeWords (i : Instr) : List Word := [encode i]

/-! The opcode table. -/

/-- One row of spec/opcode_table.json: its mnemonic, and the `match` and `mask` a Word of the row meets. -/
structure TableRow where
  mnemonic : String
  pattern : Word
  mask : Word
  deriving DecidableEq, Repr

/-- The Words of a row. -/
def TableRow.fits (r : TableRow) (ir : Word) : Bool := ir &&& r.mask == r.pattern

/-- A row that an opcode alone selects. -/
def opcodeRow (mnemonic : String) (opcode : BitVec 4) : TableRow := ⟨mnemonic, place opcodeLo opcode, opcodeMask⟩

/-- A row that an opcode and a one-bit flag select. -/
def flagRow (mnemonic : String) (opcode : BitVec 4) (bit : Nat) (flag : BitVec 1) : TableRow :=
  ⟨mnemonic, place opcodeLo opcode ||| place bit flag, opcodeMask ||| fieldMask bit 1⟩

/-- A row that opcode 1111 and a trap vector select. -/
def vectorRow (mnemonic : String) (v : BitVec 8) : TableRow :=
  ⟨mnemonic, place opcodeLo opTrap ||| place trapvectLo v, opcodeMask ||| fieldMask trapvectLo 8⟩

/-- The row of the table an instruction belongs to. -/
def Instr.row : Instr → TableRow
  | .br _ _ _ _ => opcodeRow "BR" opBr
  | .addReg _ _ _ => flagRow "ADD" opAdd immFlagBit 0#1
  | .addImm _ _ _ => flagRow "ADD" opAdd immFlagBit 1#1
  | .ld _ _ => opcodeRow "LD" opLd
  | .st _ _ => opcodeRow "ST" opSt
  | .jsr _ => flagRow "JSR" opJsr longFlagBit 1#1
  | .jsrr _ => flagRow "JSRR" opJsr longFlagBit 0#1
  | .andReg _ _ _ => flagRow "AND" opAnd immFlagBit 0#1
  | .andImm _ _ _ => flagRow "AND" opAnd immFlagBit 1#1
  | .ldr _ _ _ => opcodeRow "LDR" opLdr
  | .str _ _ _ => opcodeRow "STR" opStr
  | .rti _ => opcodeRow "RTI" opRti
  | .not _ _ => opcodeRow "NOT" opNot
  | .ldi _ _ => opcodeRow "LDI" opLdi
  | .sti _ _ => opcodeRow "STI" opSti
  | .jmp _ => opcodeRow "JMP" opJmp
  | .res _ => opcodeRow "RES" opRes
  | .lea _ _ => opcodeRow "LEA" opLea
  | .trap _ => opcodeRow "TRAP" opTrap
  | .getc => vectorRow "GETC" 0x20
  | .out => vectorRow "OUT" 0x21
  | .puts => vectorRow "PUTS" 0x22
  | .inChar => vectorRow "IN" 0x23
  | .putsp => vectorRow "PUTSP" 0x24
  | .halt => vectorRow "HALT" 0x25

/-- The 19 base rows, which "partition all 65536 Words" (R82; spec/COVERAGE.json E3): a row does not depend on the
operands, so each is the row of an instruction with any. -/
def baseRows : List TableRow :=
  [Instr.br false false false 0, .addReg .r0 .r0 .r0, .addImm .r0 .r0 0, .ld .r0 0, .st .r0 0, .jsr 0, .jsrr .r0,
   .andReg .r0 .r0 .r0, .andImm .r0 .r0 0, .ldr .r0 .r0 0, .str .r0 .r0 0, .rti 0, .not .r0 .r0, .ldi .r0 0,
   .sti .r0 0, .jmp .r0, .res 0, .lea .r0 0, .trap 0].map Instr.row

/-- The six rows that refine the TRAP row. -/
def trapRows : List TableRow := [Instr.getc, .out, .puts, .inChar, .putsp, .halt].map Instr.row

end Sys2Proof
end

