-- ==== Sys2Proof/Config.lean ====
section
/-! DEFINITION. What the spec fixes for the core (spec/00_scope.md R6) as named constants, and the open parameters
of R7 as ONE record of plain data. The record is held in State (field `cfg`, which no step changes: log entry 3), so that a
statement about every state is a statement about every setting of the parameters, as R7 asks ("open parameters,
which a model takes as arguments"). -/

namespace Sys2Proof

/-- R175, decision D10: the parameter `PUTSP_STOP`, "what ends a PUTSP string". -/
inductive PutspStop where
  /-- The default, the source's literal words "terminated by a zero byte". -/
  | zeroByte
  /-- The alternative reading: a Word 0x0000 ends the string and a zero high byte is skipped. -/
  | zeroWord
  deriving DecidableEq, Repr

/-- R7: the open parameters, under the spec's names. -/
structure Config where
  /-- `KBSR_ADDR`, the address of the keyboard status register (R43). -/
  kbsrAddr : Word
  /-- `KBDR_ADDR`, the address of the keyboard data register (R43). -/
  kbdrAddr : Word
  /-- `TRAP_INPUT_SETS_FLAGS`: whether GETC and IN recompute COND from R0 (R171, decision D8). -/
  trapInputSetsFlags : Bool
  /-- `IN_PROMPT`: the bytes IN writes before it reads (R174, decision D9). -/
  inPrompt : List Byte
  /-- `PUTSP_STOP` (R175, decision D10). -/
  putspStop : PutspStop
  /-- `RESET_GPR`: the value of R0 to R7 after reset (R36, decision D15). -/
  resetGpr : Word
  /-- `RESET_MEM_FILL`: the value of every memory cell no image wrote (R36, decision D15). -/
  resetMemFill : Word
  deriving DecidableEq, Repr

/-- R7: `KBSR_ADDR` and `KBDR_ADDR` are "two distinct addresses". This is the one condition R7 puts on a setting. -/
abbrev Config.wf (c : Config) : Prop := c.kbsrAddr ≠ c.kbdrAddr

/-- R7, R174: the default prompt, the 19 bytes of `Enter a character: `, written out as the spec's own vector V79
writes them (45 6E 74 65 72 20 61 20 63 68 61 72 61 63 74 65 72 3A 20). PRESUMED: the text is general knowledge
(D9), log entry 5. -/
def Config.defaultPrompt : List Byte :=
  [0x45, 0x6E, 0x74, 0x65, 0x72, 0x20, 0x61, 0x20, 0x63, 0x68,
   0x61, 0x72, 0x61, 0x63, 0x74, 0x65, 0x72, 0x3A, 0x20]

/-- The column "default" of R7. PRESUMED and DESIGN CHOICE values: log entries 4, 5 and 6. -/
def Config.default : Config where
  kbsrAddr := 0xFE00
  kbdrAddr := 0xFE02
  trapInputSetsFlags := false
  inPrompt := Config.defaultPrompt
  putspStop := .zeroByte
  resetGpr := 0x0000
  resetMemFill := 0x0000

/-- R6, R33: `MEM_WORDS`, the number of memory cells. -/
abbrev Config.memWords : Nat := 65536

/-- R6, R36: `PC_START`, "the architecture's fixed load address". -/
abbrev Config.pcStart : Word := 0x3000

/-- R6, R45: `KBSR_READY`, the Word a keyboard-status read returns when a key is available (decision D5). -/
abbrev Config.kbsrReady : Word := 0x8000

end Sys2Proof
end

