-- ==== Sys2Proof/Machine/State.lean ====
section
/-! DEFINITION. The state of the core as plain data (spec/10_state.md R20 to R36), the reasons a step can stop, and the
state after reset. -/

namespace Sys2Proof.Machine

/-- R26: COND holds "exactly one of three mutually exclusive flag bits". R26 allows the enumeration, which no
instruction can tell from the Word; `Cond.word` (Flags.lean) gives the numeric values. -/
inductive Cond where
  | pos | zro | neg
  deriving DecidableEq, Repr

/-- R20: the eight general registers, one Word each. Read and written through `GPRs.get` and `GPRs.set` (Ops.lean). -/
structure GPRs where
  r0 : Word
  r1 : Word
  r2 : Word
  r3 : Word
  r4 : Word
  r5 : Word
  r6 : Word
  r7 : Word
  deriving DecidableEq, Repr

/-- R29: `halt_reason`, the distinct, identifiable reason the core records at the transition to HALTED. -/
inductive HaltReason where
  /-- TRAP HALT (R176). -/
  | halt
  /-- RTI or RES (R178, R179), with the instruction Word. -/
  | invalidOpcode (ir : Word)
  /-- TRAP with an unrecognised vector (R177), with the vector. -/
  | invalidTrapVector (v : BitVec 8)
  deriving DecidableEq, Repr

/-- R29, R200: the running flag `run` with the reason recorded beside it. The reason is "meaningless while
`run = RUNNING`", so it stands in HALTED alone (log entry 23). -/
inductive Run where
  | running
  | halted (reason : HaltReason)
  deriving DecidableEq, Repr

/-- R33, R34: memory, as a list of (address, Word) pairs in the canonical form `Memory.wf` (Ops.lean). The smallest
addressable unit is the Word and no byte is addressable, so a cell is a Word and no byte order arises (R41, log
entry 1). -/
abbrev Memory := List (Nat × Word)

/-- The whole state: the source's "(Memory, Register File, running flag)", the keyboard input state and the output
stream (R35), and two fields of the model's own: the setting of the open parameters and the environment's schedule. -/
structure State where
  /-- The model's own: the open parameters of R7. No step writes it (log entry 3). -/
  cfg : Config
  /-- R0 to R7 (R20). -/
  gpr : GPRs
  /-- The program counter (R23). -/
  pc : Word
  /-- The condition-flag register COND (R26). -/
  cond : Cond
  /-- The running flag and `halt_reason` (R29). -/
  run : Run
  /-- The underlying array `mem`, with the two hidden cells behind the reserved addresses (R33, R35). -/
  mem : Memory
  /-- The input stream `inq`: bytes delivered by the keyboard and not yet consumed, the head first (R35, R181). -/
  inq : List Byte
  /-- The output stream `out`: every byte written so far, the oldest first (R35, R181). -/
  out : List Byte
  /-- The model's own: what the environment will append to `inq`, the first list before the next step, the second
  before the step after it, and so on; when the list is used up nothing more is typed (R35, log entry 18). -/
  arrivals : List (List Byte)
  deriving DecidableEq, Repr

/-- Why a step stops for good with no next state. -/
inductive Fault where
  /-- Raised by PUTS and PUTSP (Ops.lean `stringLoop`) when the string read goes on for ever and the
  instruction "never completes" (R208, decision D21). SAFE: the model stops where the hardware goes on without an end,
  and no value is made up. It cannot be raised when the two keyboard addresses are distinct, as R7 requires
  (Laws/Strings.lean `stringLoop_ends`): log entry 20. -/
  | stringNeverEnds
  deriving DecidableEq, Repr

/-- Why a step has no meaning in the model. -/
inductive Refusal where
  /-- Raised by an arm of `exec` for an instruction that has no meaning yet. SAFE. No arm raises it: every row of the
  opcode table is modelled. -/
  | notModelled (mnemonic : String)
  deriving DecidableEq, Repr

/-- The state after reset under a setting `c` of the parameters, before any image is loaded (R36, R250 steps 1 and 3).
PC, COND and run are the source's; the general registers and the memory fill are `RESET_GPR` and `RESET_MEM_FILL` (log
entries 2 and 9); memory lists nothing; the output is empty; the environment has typed nothing (log entry 18). -/
def State.resetWith (c : Config) : State where
  cfg := c
  gpr := ⟨c.resetGpr, c.resetGpr, c.resetGpr, c.resetGpr, c.resetGpr, c.resetGpr, c.resetGpr, c.resetGpr⟩
  pc := Config.pcStart
  cond := .zro
  run := .running
  mem := []
  inq := []
  out := []
  arrivals := []

/-- The state right after reset with every parameter at its default (R7, R36). -/
def State.reset : State := State.resetWith Config.default

end Sys2Proof.Machine
end

