-- ==== Sys2Proof/Machine/Flags.lean ====
section
/-! DEFINITION. The flag computation and the flag test: R26 (the values of COND), R27 and R107 (`setcc`), R120 (the test
BR makes). These are the only flags the core has (R105: no carry, no overflow). -/

namespace Sys2Proof.Machine

/-- R26, decision D3: `FL_POS`, `FL_ZRO`, `FL_NEG`, the numeric values of COND. Unobservable (log entry 10). -/
def Cond.word : Cond → Word
  | .pos => 0x0001
  | .zro => 0x0002
  | .neg => 0x0004

/-- R8 `setcc`, R107: the flag of a result Word. -/
def flagOf (v : Word) : Cond :=
  if v = 0x0000 then .zro
  else if v.getLsbD 15 then .neg
  else .pos

/-- R73 format D: ir[11:9], "cond(3 bits)", from the three cond bits. -/
def condField (n z p : Bool) : BitVec 3 := BitVec.ofBool n ++ BitVec.ofBool z ++ BitVec.ofBool p

/-- R120: "(ir[11:9] & cond[2:0]) ≠ 0". -/
def branchTaken (n z p : Bool) (c : Cond) : Bool :=
  condField n z p &&& c.word.extractLsb' 0 3 != 0

end Sys2Proof.Machine
end

