-- ==== Sys2Proof/Machine/Ops.lean ====
section
/-! DEFINITION. The shared operations over registers, memory, the console and the run state: the primitives of
spec/00_scope.md R8, the read and write of memory with the keyboard interception (spec/20_memory.md R44 to R49), the
console primitives and the trap routines' string loops (spec/43_trap.md R170 to R182), entering a trap routine and a
fatal condition (spec/60_exceptions.md R227, R229), and fetch (spec/44_execution_loop.md R202). There is no return
operation: "There is no return instruction for either mechanism" (R230). -/

namespace Sys2Proof.Machine

/-! Registers. -/

/-- R8 `x[i]` on the register file. -/
def GPRs.get (g : GPRs) : Reg → Word
  | .r0 => g.r0
  | .r1 => g.r1
  | .r2 => g.r2
  | .r3 => g.r3
  | .r4 => g.r4
  | .r5 => g.r5
  | .r6 => g.r6
  | .r7 => g.r7

/-- R8 `x[i] <- v` on the register file: no register is hardwired (R21). -/
def GPRs.set (g : GPRs) (i : Reg) (v : Word) : GPRs :=
  match i with
  | .r0 => { g with r0 := v }
  | .r1 => { g with r1 := v }
  | .r2 => { g with r2 := v }
  | .r3 => { g with r3 := v }
  | .r4 => { g with r4 := v }
  | .r5 => { g with r5 := v }
  | .r6 => { g with r6 := v }
  | .r7 => { g with r7 := v }

/-- R8 `x[i]`. -/
def State.x (s : State) (i : Reg) : Word := s.gpr.get i

/-- R8 `x[i] <- v`: "It does not by itself change COND". -/
def State.setX (s : State) (i : Reg) (v : Word) : State := { s with gpr := s.gpr.set i v }

/-- R8 `pc <- target`. -/
def State.setPc (s : State) (a : Word) : State := { s with pc := a }

/-- R8 `setcc(i)`: COND from the value register Ri now holds (R27: the only way an instruction writes COND). -/
def State.setcc (s : State) (i : Reg) : State := { s with cond := flagOf (s.x i) }

/-- The pair "x[dst] <- v; setcc(dst)" of ADD, AND, NOT, LD, LDI, LDR and LEA (R100 to R104, R140 to R143). -/
def State.writeResult (s : State) (dst : Reg) (v : Word) : State := (s.setX dst v).setcc dst

/-! The array. -/

/-- What the list holds for an address, if it lists it. -/
def Memory.lookup : Memory → Nat → Option Word
  | [], _ => none
  | (b, w) :: m, a => if a = b then some w else Memory.lookup m a

/-- `mem[a]`, where an unlisted address reads as `fill`. -/
def Memory.get (fill : Word) (m : Memory) (a : Word) : Word := (m.lookup a.toNat).getD fill

/-- List `v` at `a`, in the place the order asks for. -/
def Memory.put : Memory → Nat → Word → Memory
  | [], a, v => [(a, v)]
  | (b, w) :: m, a, v =>
    if a < b then (a, v) :: (b, w) :: m
    else if a = b then (a, v) :: m
    else (b, w) :: Memory.put m a v

/-- List nothing at `a`. -/
def Memory.erase (m : Memory) (a : Nat) : Memory := m.filter fun p => p.1 != a

/-- `mem[a] <- v`, keeping the canonical form: writing what an unlisted address reads as removes the entry. -/
def Memory.set (fill : Word) (m : Memory) (a : Word) (v : Word) : Memory :=
  if v = fill then m.erase a.toNat else m.put a.toNat v

/-- The canonical form: addresses strictly rising and inside the 65536 cells (R33), no entry equal to what an unlisted
address reads as. -/
abbrev Memory.wf (fill : Word) (m : Memory) : Prop :=
  m.Pairwise (fun p q => p.1 < q.1) ∧ ∀ p ∈ m, p.1 < Config.memWords ∧ p.2 ≠ fill

/-- What an unlisted address reads as: `RESET_MEM_FILL`, the value of every cell no image wrote (R36, log entry 2). -/
def State.unlisted (s : State) : Word := s.cfg.resetMemFill

/-- R8 `mem[a]`, "the underlying array cell at address a, without device interception". -/
def State.cell (s : State) (a : Word) : Word := s.mem.get s.unlisted a

/-- R8 `mem[a] <- v`. -/
def State.setCell (s : State) (a v : Word) : State := { s with mem := s.mem.set s.unlisted a v }

/-! The console primitives (R181). -/

/-- R8 `zext_8(v)`. -/
def zext8 (c : Byte) : Word := c.zeroExtend 16

/-- `PollInput()`: "return (inq is not empty)". -/
def State.pollInput (s : State) : Bool := !s.inq.isEmpty

/-- `WriteOutputChar(b)`: "out <- out ++ [b]". -/
def State.writeOutputChar (s : State) (b : Byte) : State := { s with out := s.out ++ [b] }

/-- `WriteOutputChar` for each byte of a list in order. -/
def State.writeOutputChars (s : State) (bs : List Byte) : State := bs.foldl State.writeOutputChar s

/-- `ReadInputChar(echo)`: the head of `inq`, removed, and echoed to the output if asked; none while `inq` is empty,
that is while the primitive waits. -/
def State.readInputChar (s : State) (echo : Bool) : Option (Byte × State) :=
  match s.inq with
  | [] => none
  | c :: rest =>
    let t : State := { s with inq := rest }
    some (c, if echo then t.writeOutputChar c else t)

/-! The read and write primitives. -/

/-- `MemRead(addr, 16)`, R44: the status address answers the poll (R45), the data address consumes a byte, stores it in
the hidden cell and answers it (R46), any other address answers the array cell (R47). None while the read waits for an
input byte (R46). -/
def State.memRead (s : State) (a : Word) : Option (Word × State) :=
  if a = s.cfg.kbsrAddr then some (if s.pollInput then Config.kbsrReady else 0x0000, s)
  else if a = s.cfg.kbdrAddr then
    match s.readInputChar false with
    | none => none
    | some (c, t) => some (zext8 c, t.setCell s.cfg.kbdrAddr (zext8 c))
  else some (s.cell a, s)

/-- `MemWrite(addr, 16, v)`, R48 and R49: "mem[addr] <- v, for every addr, reserved or not". -/
def State.memWrite (s : State) (a v : Word) : State := s.setCell a v

/-! How an instruction ends. -/

/-- A wait (R182, R207): "the step is not enabled while the byte it needs is missing", and "while it waits no state
changes". `s` is the state in the execute phase, where pc is the instruction's address plus 1, so the next step
fetches the same instruction again (log entry 17). -/
def State.await (s : State) : Host.Outcome State Fault Refusal := .next (s.setPc (s.pc - 1))

/-- Go on with what a read answers, or wait. `s` is the state the instruction began to execute in. -/
def State.afterRead (s : State) (r : Option (Word × State)) (k : Word → State → Host.Outcome State Fault Refusal) :
    Host.Outcome State Fault Refusal :=
  match r with
  | none => s.await
  | some (w, t) => k w t

/-- How a trap routine ends. -/
inductive Routine where
  /-- It is done. -/
  | done (t : State)
  /-- It needs an input byte that is not there (R182). -/
  | waits
  /-- It reads on for ever (R208, decision D21). -/
  | neverEnds
  deriving DecidableEq, Repr

/-- The step of a TRAP "ends only when the routine ends" (R170). `s` is the state the TRAP began to execute in. -/
def State.finish (s : State) : Routine → Host.Outcome State Fault Refusal
  | .done t => .next t
  | .waits => s.await
  | .neverEnds => .fault .stringNeverEnds

/-! Entering a fatal condition, HALT, and entering a trap routine. -/

/-- R205, R227: the transition to HALTED. "The only changes are run <- HALTED and halt_reason <- the condition": nothing
is saved, control goes nowhere, and pc stays at the address after the instruction. -/
def State.haltWith (s : State) (r : HaltReason) : State := { s with run := .halted r }

/-- `raise InvalidOpcode(ir)`, R221. -/
def State.raiseInvalidOpcode (s : State) (ir : Word) : State := s.haltWith (.invalidOpcode ir)

/-- `raise InvalidTrapVector(v)`, R222. -/
def State.raiseInvalidTrapVector (s : State) (v : BitVec 8) : State := s.haltWith (.invalidTrapVector v)

/-- R170, R229: "TRAP saves the return address in R7 (x[7] <- pc_inc)" and nothing else. -/
def State.enterTrap (s : State) : State := s.setX .r7 s.pc

/-! The trap routines (R171 to R177). -/

/-- The end of GETC and IN: x[0] <- zext_8(c), and setcc(0) if `TRAP_INPUT_SETS_FLAGS` (R171, R174). -/
def State.inputToR0 (s : State) (c : Byte) : State :=
  let t := s.setX .r0 (zext8 c)
  if s.cfg.trapInputSetsFlags then t.setcc .r0 else t

/-- The wait and the read that GETC and IN share (R171, R174). -/
def inputRoutine (s : State) (echo : Bool) : Routine :=
  match s.readInputChar echo with
  | none => .waits
  | some (c, t) => .done (t.inputToR0 c)

/-- R171. -/
def getcRoutine (s : State) : Routine := inputRoutine s false

/-- R172: the low byte of R0. -/
def outRoutine (s : State) : Routine := .done (s.writeOutputChar ((s.x .r0).extractLsb' 0 8))

/-- How many reads a string can take before it stops or waits: each read of a run of reads from `a` upwards either
brings the address one nearer to `KBDR_ADDR` or, at `KBDR_ADDR`, takes one byte of `inq` (R46), so the reads are fewer
than this number when the two keyboard addresses are distinct (Laws/Strings.lean). -/
def State.stringFuel (s : State) (a : Word) : Nat :=
  Config.memWords * s.inq.length + (s.cfg.kbdrAddr - a).toNat + 1

/-- What a string routine does with one Word it reads: the bytes it writes, in order, and whether it goes on. R173: a
Word that is zero in all 16 bits ends the string, any other writes its low byte. -/
def putsBytes (w : Word) : List Byte × Bool :=
  if w = 0x0000 then ([], false) else ([w.extractLsb' 0 8], true)

/-- R175, under the two settings of `PUTSP_STOP`: low byte first, then high byte. -/
def putspBytes (stop : PutspStop) (w : Word) : List Byte × Bool :=
  let lo : Byte := w.extractLsb' 0 8
  let hi : Byte := w.extractLsb' 8 8
  match stop with
  | .zeroByte =>
    if lo = 0x00 then ([], false)
    else if hi = 0x00 then ([lo], false)
    else ([lo, hi], true)
  | .zeroWord =>
    if w = 0x0000 then ([], false)
    else if hi = 0x00 then ([lo], true)
    else ([lo, hi], true)

/-- The loop of R173 and R175 at address `a`: read a Word, write its bytes, and go on at a + 1 (modulo 2^16) or exit. The
reads are `MemRead`s and see the keyboard registers (decision D11). -/
def stringLoop (bytes : Word → List Byte × Bool) : Nat → Word → State → Routine
  | 0, _, _ => .neverEnds
  | fuel + 1, a, s =>
    match s.memRead a with
    | none => .waits
    | some (w, t) =>
      if (bytes w).2 then stringLoop bytes fuel (a + 1) (t.writeOutputChars (bytes w).1)
      else .done (t.writeOutputChars (bytes w).1)

/-- R173: from the address in R0, which is left unchanged. -/
def putsRoutine (s : State) : Routine := stringLoop putsBytes (s.stringFuel (s.x .r0)) (s.x .r0) s

/-- R175: from the address in R0, which is left unchanged. -/
def putspRoutine (s : State) : Routine :=
  stringLoop (putspBytes s.cfg.putspStop) (s.stringFuel (s.x .r0)) (s.x .r0) s

/-- R174: prompt, read with echo, R0. -/
def inRoutine (s : State) : Routine := inputRoutine (s.writeOutputChars s.cfg.inPrompt) true

/-- R176: run <- HALTED, halt_reason <- Halt. No output: "flush" changes nothing, since every byte is visible as soon
as it is written (decisions D18, D19, log entry 21). -/
def haltRoutine (s : State) : Routine := .done (s.haltWith .halt)

/-- R177. -/
def invalidVectorRoutine (s : State) (v : BitVec 8) : Routine := .done (s.raiseInvalidTrapVector v)

/-- R170: the Trap Dispatcher's table. -/
def trapRoutine (s : State) (v : BitVec 8) : Routine :=
  if v = 0x20 then getcRoutine s
  else if v = 0x21 then outRoutine s
  else if v = 0x22 then putsRoutine s
  else if v = 0x23 then inRoutine s
  else if v = 0x24 then putspRoutine s
  else if v = 0x25 then haltRoutine s
  else invalidVectorRoutine s v

/-! Fetch, and what the environment does between two steps. -/

/-- R202: the fetch is a `MemRead` at pc, and the increment follows it at once, modulo 2^16. None while the fetch waits
(pc = `KBDR_ADDR` and no input). -/
def State.fetch (s : State) : Option (Word × State) :=
  match s.memRead s.pc with
  | none => none
  | some (ir, t) => some (ir, t.setPc (t.pc + 1))

/-- R35, R51, decision D24: the environment appends bytes to the input stream, and does nothing else. -/
def State.deliver (s : State) (bs : List Byte) : State := { s with inq := s.inq ++ bs }

/-- What the environment does before the next step: the head of its schedule (log entry 18). -/
def State.arrive (s : State) : State :=
  match s.arrivals with
  | [] => s
  | bs :: rest => { s.deliver bs with arrivals := rest }

end Sys2Proof.Machine
end

