-- ==== Sys2Proof/Machine/Operands.lean ====
section
/-! DEFINITION. The operand forms and addressing modes of spec/42_load_store.md R147 and the sign extension of
spec/00_scope.md R8. Every sum is modulo 2^16 (R105) and its pc is the pc of the execute phase, `pc_inc` (R125). -/

namespace Sys2Proof.Machine

/-- R8 `sext_N(v)`: "If bit N-1 of v is 1 the result is v with bits 15 to N all set to 1, else the result is v with bits
15 to N all 0" (N one of 5, 6, 9, 11). -/
def sext {n : Nat} (v : BitVec n) : Word := v.signExtend 16

/-- Immediate: `sext_5(ir[4:0])`. -/
def immOperand (imm : BitVec 5) : Word := sext imm

/-- PC-relative: `pc_inc + sext_9(ir[8:0])`. -/
def State.pcRel9 (s : State) (off : BitVec 9) : Word := s.pc + sext off

/-- PC-relative target of JSR: `pc_inc + sext_11(ir[10:0])`. -/
def State.pcRel11 (s : State) (off : BitVec 11) : Word := s.pc + sext off

/-- Base plus offset: `x[base] + sext_6(ir[5:0])`. -/
def State.baseOffset (s : State) (base : Reg) (off : BitVec 6) : Word := s.x base + sext off

/-- Indirect: `MemRead(pc_inc + sext_9(ir[8:0]), 16)`, the pointer and the state after it is read (R141, R145). -/
def State.indirect (s : State) (off : BitVec 9) : Option (Word × State) := s.memRead (s.pcRel9 off)

end Sys2Proof.Machine
end

