-- ==== Sys2Proof/Machine/Control.lean ====
section
/-! DEFINITION. BR, JMP, JSR and JSRR (spec/41_control.md R120 to R125). None of them writes COND, none has a delay
slot. -/

namespace Sys2Proof.Machine

/-- R120: if (ir[11:9] & cond[2:0]) ≠ 0 then pc <- pc + sext_9(off). -/
def execBr (n z p : Bool) (off : BitVec 9) (s : State) : Host.Outcome State Fault Refusal :=
  .next (if branchTaken n z p s.cond then s.setPc (s.pcRel9 off) else s)

/-- R121: pc <- x[base]. -/
def execJmp (base : Reg) (s : State) : Host.Outcome State Fault Refusal :=
  .next (s.setPc (s.x base))

/-- R122: x[7] <- pc; pc <- pc + sext_11(off). -/
def execJsr (off : BitVec 11) (s : State) : Host.Outcome State Fault Refusal :=
  let t := s.setX .r7 s.pc
  .next (t.setPc (t.pcRel11 off))

/-- R123, decision D7: x[7] <- pc; pc <- x[base], the base read after the write of x[7], so that `JSRR R7` goes on at
pc_inc (log entry 15). -/
def execJsrr (base : Reg) (s : State) : Host.Outcome State Fault Refusal :=
  let t := s.setX .r7 s.pc
  .next (t.setPc (t.x base))

end Sys2Proof.Machine
end

