-- ==== Sys2Proof/Machine/LoadStore.lean ====
section
/-! DEFINITION. LD, LDI, LDR, LEA, ST, STI and STR (spec/42_load_store.md R140 to R146). Their reads and writes are those
of R50, in that order; the only way one of them fails to complete is the wait of a read of `KBDR_ADDR` (R148). -/

namespace Sys2Proof.Machine

/-- R140: x[dst] <- MemRead(pc + sext_9(off)); setcc(dst). -/
def execLd (dst : Reg) (off : BitVec 9) (s : State) : Host.Outcome State Fault Refusal :=
  s.afterRead (s.memRead (s.pcRel9 off)) fun w t => .next (t.writeResult dst w)

/-- R141: the pointer, then the datum at the address it holds; setcc(dst). -/
def execLdi (dst : Reg) (off : BitVec 9) (s : State) : Host.Outcome State Fault Refusal :=
  s.afterRead (s.indirect off) fun ea t =>
    s.afterRead (t.memRead ea) fun w u => .next (u.writeResult dst w)

/-- R142: x[dst] <- MemRead(x[base] + sext_6(off)); setcc(dst). -/
def execLdr (dst base : Reg) (off : BitVec 6) (s : State) : Host.Outcome State Fault Refusal :=
  s.afterRead (s.memRead (s.baseOffset base off)) fun w t => .next (t.writeResult dst w)

/-- R143: x[dst] <- pc + sext_9(off); setcc(dst). Memory is not read. -/
def execLea (dst : Reg) (off : BitVec 9) (s : State) : Host.Outcome State Fault Refusal :=
  .next (s.writeResult dst (s.pcRel9 off))

/-- R144: MemWrite(pc + sext_9(off), x[src]). -/
def execSt (src : Reg) (off : BitVec 9) (s : State) : Host.Outcome State Fault Refusal :=
  .next (s.memWrite (s.pcRel9 off) (s.x src))

/-- R145: the pointer, then MemWrite at the address it holds. -/
def execSti (src : Reg) (off : BitVec 9) (s : State) : Host.Outcome State Fault Refusal :=
  s.afterRead (s.indirect off) fun ea t => .next (t.memWrite ea (t.x src))

/-- R146: MemWrite(x[base] + sext_6(off), x[src]). -/
def execStr (src base : Reg) (off : BitVec 6) (s : State) : Host.Outcome State Fault Refusal :=
  .next (s.memWrite (s.baseOffset base off) (s.x src))

end Sys2Proof.Machine
end

