-- ==== Sys2Proof/Machine/Operate.lean ====
section
/-! DEFINITION. ADD, AND and NOT (spec/40_operate.md R100 to R104). No condition is ever raised (R105). -/

namespace Sys2Proof.Machine

/-- R100: x[dst] <- x[src1] + x[src2]; setcc(dst). -/
def execAddReg (dst src1 src2 : Reg) (s : State) : Host.Outcome State Fault Refusal :=
  .next (s.writeResult dst (s.x src1 + s.x src2))

/-- R101: x[dst] <- x[src1] + sext_5(imm5); setcc(dst). -/
def execAddImm (dst src1 : Reg) (imm : BitVec 5) (s : State) : Host.Outcome State Fault Refusal :=
  .next (s.writeResult dst (s.x src1 + immOperand imm))

/-- R102: x[dst] <- x[src1] & x[src2]; setcc(dst). -/
def execAndReg (dst src1 src2 : Reg) (s : State) : Host.Outcome State Fault Refusal :=
  .next (s.writeResult dst (s.x src1 &&& s.x src2))

/-- R103: x[dst] <- x[src1] & sext_5(imm5); setcc(dst). -/
def execAndImm (dst src1 : Reg) (imm : BitVec 5) (s : State) : Host.Outcome State Fault Refusal :=
  .next (s.writeResult dst (s.x src1 &&& immOperand imm))

/-- R104: x[dst] <- ~x[src]; setcc(dst). -/
def execNot (dst src : Reg) (s : State) : Host.Outcome State Fault Refusal :=
  .next (s.writeResult dst (~~~ s.x src))

end Sys2Proof.Machine
end

