-- ==== Sys2Proof/Machine/Trap.lean ====
section
/-! DEFINITION. TRAP, its six routines, and the invalid opcodes RTI and RES (spec/43_trap.md R170 to R179). The routines
are hardware of the Trap Dispatcher, not code in memory (R180), and run whole inside the step of their TRAP. RTI and
RES take the fatal condition their rule names; it is a next state, HALTED (R227). -/

namespace Sys2Proof.Machine

/-- R170: x[7] <- pc, then the routine the vector selects; R177 for a vector that selects none. -/
def execTrap (v : BitVec 8) (s : State) : Host.Outcome State Fault Refusal :=
  s.finish (trapRoutine s.enterTrap v)

/-- R171, entered as R170 says. -/
def execGetc (s : State) : Host.Outcome State Fault Refusal := s.finish (getcRoutine s.enterTrap)

/-- R172, entered as R170 says. -/
def execOut (s : State) : Host.Outcome State Fault Refusal := s.finish (outRoutine s.enterTrap)

/-- R173, entered as R170 says. -/
def execPuts (s : State) : Host.Outcome State Fault Refusal := s.finish (putsRoutine s.enterTrap)

/-- R174, entered as R170 says. -/
def execIn (s : State) : Host.Outcome State Fault Refusal := s.finish (inRoutine s.enterTrap)

/-- R175, entered as R170 says. -/
def execPutsp (s : State) : Host.Outcome State Fault Refusal := s.finish (putspRoutine s.enterTrap)

/-- R176, entered as R170 says. -/
def execHalt (s : State) : Host.Outcome State Fault Refusal := s.finish (haltRoutine s.enterTrap)

/-- R178: raise InvalidOpcode(ir), where ir[15:12] = 1000. -/
def execRti (low : BitVec 12) (s : State) : Host.Outcome State Fault Refusal :=
  .next (s.raiseInvalidOpcode (0b1000#4 ++ low))

/-- R179: raise InvalidOpcode(ir), where ir[15:12] = 1101. -/
def execRes (low : BitVec 12) (s : State) : Host.Outcome State Fault Refusal :=
  .next (s.raiseInvalidOpcode (0b1101#4 ++ low))

end Sys2Proof.Machine
end

