-- ==== Sys2Proof/Machine/Dispatch.lean ====
section
/-! DEFINITION. The dispatch of spec/44_execution_loop.md R201 and R203: one arm per constructor of Instr, in the order of
spec/opcode_table.json. `s` is the state of the execute phase, in which pc holds pc_inc (R23). -/

namespace Sys2Proof.Machine

def exec (i : Instr) (s : State) : Host.Outcome State Fault Refusal :=
  match i with
  | .br n z p off => Sys2Proof.Machine.execBr n z p off s
  | .addReg dst src1 src2 => Sys2Proof.Machine.execAddReg dst src1 src2 s
  | .addImm dst src1 imm => Sys2Proof.Machine.execAddImm dst src1 imm s
  | .ld dst off => Sys2Proof.Machine.execLd dst off s
  | .st src off => Sys2Proof.Machine.execSt src off s
  | .jsr off => Sys2Proof.Machine.execJsr off s
  | .jsrr base => Sys2Proof.Machine.execJsrr base s
  | .andReg dst src1 src2 => Sys2Proof.Machine.execAndReg dst src1 src2 s
  | .andImm dst src1 imm => Sys2Proof.Machine.execAndImm dst src1 imm s
  | .ldr dst base off => Sys2Proof.Machine.execLdr dst base off s
  | .str src base off => Sys2Proof.Machine.execStr src base off s
  | .rti low => Sys2Proof.Machine.execRti low s
  | .not dst src => Sys2Proof.Machine.execNot dst src s
  | .ldi dst off => Sys2Proof.Machine.execLdi dst off s
  | .sti src off => Sys2Proof.Machine.execSti src off s
  | .jmp base => Sys2Proof.Machine.execJmp base s
  | .res low => Sys2Proof.Machine.execRes low s
  | .lea dst off => Sys2Proof.Machine.execLea dst off s
  | .trap vect => Sys2Proof.Machine.execTrap vect s
  | .getc => Sys2Proof.Machine.execGetc s
  | .out => Sys2Proof.Machine.execOut s
  | .puts => Sys2Proof.Machine.execPuts s
  | .inChar => Sys2Proof.Machine.execIn s
  | .putsp => Sys2Proof.Machine.execPutsp s
  | .halt => Sys2Proof.Machine.execHalt s

end Sys2Proof.Machine
end

