-- ==== Sys2Proof/Machine/Step.lean ====
section
/-! DEFINITION. One step of the Execution Loop (spec/44_execution_loop.md R200 to R207), and placing an instruction where
the next step fetches it. -/

namespace Sys2Proof.Machine

/-- R200 to R206. In HALTED "the core takes no step, changes no state". In RUNNING: the environment's bytes for this
moment arrive (log entry 18), the Word at pc is fetched and pc incremented (R202), the Word is decoded and its
instruction executed (R203). A fetch that waits for a byte changes nothing (R207). -/
def step (s : State) : Host.Outcome State Fault Refusal :=
  match s.run with
  | .halted _ => .next s
  | .running =>
    match s.arrive.fetch with
    | none => .next s.arrive
    | some (ir, t) => exec (decode ir) t

/-- Where `withFetchWord` puts the instruction: at pc, or, where pc names a keyboard register, from which no stored Word
can be fetched (R44), at the first of three addresses that is not one. -/
def State.fetchSlot (s : State) : Word :=
  if s.pc ≠ s.cfg.kbsrAddr ∧ s.pc ≠ s.cfg.kbdrAddr then s.pc
  else if (0x3000 : Word) ≠ s.cfg.kbsrAddr ∧ (0x3000 : Word) ≠ s.cfg.kbdrAddr then 0x3000
  else if (0x3001 : Word) ≠ s.cfg.kbsrAddr ∧ (0x3001 : Word) ≠ s.cfg.kbdrAddr then 0x3001
  else 0x3002

/-- `s` with the instruction whose bits are `w` stored where the next step fetches it: a load from outside the machine
(R254, log entry 25). pc and run change only where the fetch needs it (pc on a keyboard register, the core HALTED). -/
def State.withFetchWord (s : State) (nbits w : Nat) : State :=
  let ir : Word := (tableWord nbits w).getD (BitVec.ofNat 16 w)
  { s.memWrite s.fetchSlot ir with pc := s.fetchSlot, run := .running }

end Sys2Proof.Machine
end

