-- ==== Sys2Proof/Machine/Boot.lean ====
section
/-! DEFINITION. What the host does around a run (spec/70_reset_and_hazards.md R250 to R260): reset, loading images,
release from reset, and the outcome it is told. No step does any of this; "a running core cannot be loaded" (R254). -/

namespace Sys2Proof.Machine

/-- R254: an image, `Load(base, ws)`. -/
structure Image where
  base : Word
  words : List Word
  deriving DecidableEq, Repr

/-- Why the host does not release the core from reset. -/
inductive BootFailure where
  /-- R223, R256: "no image loaded successfully". -/
  | imageLoadFailure
  /-- R257: the image would run past address 0xFFFF, so the load is refused. DESIGN CHOICE of the model (log entry 24): a
  name of its own for this refusal, which the host reports only where an earlier image did load; the spec names no
  condition there and leaves it to the host (R256). -/
  | imagePastEnd
  deriving DecidableEq, Repr

/-- R254: mem[base + i] <- ws[i], in ascending order, by `MemWrite` (R48). -/
def State.loadWords (s : State) (base : Word) : List Word → State
  | [] => s
  | w :: ws => (s.memWrite base w).loadWords (base + 1) ws

/-- R254, R257: `Load(base, ws)`; "a model refuses a load that breaks" base + length(ws) <= 65536. -/
def State.load (s : State) (img : Image) : Except BootFailure State :=
  if img.base.toNat + img.words.length ≤ Config.memWords then .ok (s.loadWords img.base img.words)
  else .error .imagePastEnd

/-- R255: the images one after another in the host's order, a later one over an earlier one; a refused load stops the
loading (log entry 24). -/
def State.loadAll (s : State) : List Image → Except BootFailure State
  | [] => .ok s
  | img :: imgs =>
    match s.load img with
    | .error e => .error e
    | .ok t => t.loadAll imgs

/-- R236, R250, R36: a reset of a machine in any state. Nothing of the run before it survives; the setting of the
parameters is the machine's, and the input is "whatever the environment has delivered; the core does not clear it". -/
def State.hostReset (s : State) : State :=
  { State.resetWith s.cfg with inq := s.inq, arrivals := s.arrivals }

/-- R250, R253, R256: reset, load, release. Without an image the core is never released. DESIGN CHOICE of the model (log
entry 24), where R257 says only that a load is refused: a refused image stops the boot, a refused first image is "no
image loaded" and reported as ImageLoadFailure (R256), and a refused later one as `imagePastEnd`. -/
def State.boot (s : State) (imgs : List Image) : Except BootFailure State :=
  match imgs with
  | [] => .error .imageLoadFailure
  | img :: rest =>
    match s.hostReset.load img with
    | .error _ => .error .imageLoadFailure
    | .ok t => t.loadAll rest

/-- R258, for the host model only: the image a file of bytes stands for, "big-endian 16-bit words prefixed by a 16-bit
load-address field". None for a file of odd length or of fewer than two bytes, which the spec leaves out. -/
def bigEndianWords : List Byte → Option (List Word)
  | [] => some []
  | [_] => none
  | hi :: lo :: rest => (bigEndianWords rest).map fun ws => (hi ++ lo : Word) :: ws

/-- R258: the file's first Word is the base, the others are the Words. -/
def imageOfFile (bytes : List Byte) : Option Image :=
  match bigEndianWords bytes with
  | some (base :: ws) => some ⟨base, ws⟩
  | _ => none

/-- R206, R260: what the run reports to the host. -/
inductive RunOutcome where
  | success
  | failure (reason : HaltReason)
  deriving DecidableEq, Repr

/-- R206: none while RUNNING; success when `halt_reason = Halt`, else failure with the reason. -/
def State.outcome (s : State) : Option RunOutcome :=
  match s.run with
  | .running => none
  | .halted .halt => some .success
  | .halted r => some (.failure r)

end Sys2Proof.Machine
end

