-- ==== Sys2Proof/Safety.lean ====
section
/-! DEFINITION. The terms statements are written in: the invariant, the flag table of R107 written from the spec's words,
which instructions write what (R22, R27, R50), what an instruction leaves unchanged (R9), and the string loops of R173
and R175 as relations. None of it is used by the machine. -/

namespace Sys2Proof.Machine

/-- The invariant: the two keyboard addresses are distinct (R7) and memory is in its canonical form (R33). -/
abbrev State.Inv (s : State) : Prop := s.cfg.wf ∧ s.mem.wf s.unlisted

/-- A keyboard register's address (R43). -/
abbrev State.isDevice (s : State) (a : Word) : Prop := a = s.cfg.kbsrAddr ∨ a = s.cfg.kbdrAddr

/-- A read of `a` waits in this state (R46), given that the two keyboard addresses are distinct. -/
abbrev State.inputMissing (s : State) (a : Word) : Prop := a = s.cfg.kbdrAddr ∧ s.inq = []

/-- R107, the table row by row: 0x0000 gives ZRO, 0x0001 to 0x7FFF POS, 0x8000 to 0xFFFF NEG. -/
def FlagTable (v : Word) (c : Cond) : Prop :=
  (v.toNat = 0 → c = .zro) ∧ (1 ≤ v.toNat ∧ v.toNat ≤ 0x7FFF → c = .pos) ∧ (0x8000 ≤ v.toNat → c = .neg)

/-! Frames (R9). -/

/-- Every register outside the list keeps its value. -/
def KeepsRegsExcept (ds : List Reg) (s t : State) : Prop := ∀ r, r ∉ ds → t.x r = s.x r

/-- Every memory cell outside the list keeps its Word. -/
def KeepsCellsExcept (as : List Word) (s t : State) : Prop := ∀ a, a ∉ as → t.cell a = s.cell a

/-- The input stream, the output stream and the environment's schedule are as they were. -/
def KeepsStreams (s t : State) : Prop := t.inq = s.inq ∧ t.out = s.out ∧ t.arrivals = s.arrivals

/-- The run state and the setting of the parameters are as they were. -/
def KeepsRun (s t : State) : Prop := t.run = s.run ∧ t.cfg = s.cfg

/-- R100 to R104, R143: `v` is written to `d`, COND is recomputed from it, and nothing else changes. -/
def WritesResultOnly (d : Reg) (v : Word) (s t : State) : Prop :=
  t.x d = v ∧ FlagTable v t.cond ∧ KeepsRegsExcept [d] s t ∧ t.pc = s.pc ∧ KeepsCellsExcept [] s t ∧
    KeepsStreams s t ∧ KeepsRun s t

/-- R144 to R146: the Word `v` is stored at `a`, and nothing else changes. -/
def StoresOnly (a v : Word) (s t : State) : Prop :=
  t.cell a = v ∧ KeepsCellsExcept [a] s t ∧ KeepsRegsExcept [] s t ∧ t.cond = s.cond ∧ t.pc = s.pc ∧
    KeepsStreams s t ∧ KeepsRun s t

/-- R170, R172, R173, R175: a TRAP that appends these bytes to the output, writes pc_inc to R7, and changes nothing
else. -/
def WritesOutputOnly (bs : List Byte) (s t : State) : Prop :=
  t.out = s.out ++ bs ∧ t.x .r7 = s.pc ∧ KeepsRegsExcept [.r7] s t ∧ t.cond = s.cond ∧ t.pc = s.pc ∧
    KeepsCellsExcept [] s t ∧ t.inq = s.inq ∧ t.arrivals = s.arrivals ∧ KeepsRun s t

/-- The two states are the same but for the hidden cells behind the keyboard registers' addresses (R35). -/
def AgreeButHidden (s t : State) : Prop :=
  t.cfg = s.cfg ∧ t.gpr = s.gpr ∧ t.pc = s.pc ∧ t.cond = s.cond ∧ t.run = s.run ∧ t.inq = s.inq ∧ t.out = s.out ∧
    t.arrivals = s.arrivals ∧ ∀ a, ¬ s.isDevice a → t.cell a = s.cell a

/-- What a completed `MemRead(a, 16)` answers and leaves, case by case from the pseudocode of R44: the status address
(R45), the data address, which consumes the head byte and stores it in the hidden cell (R46), any other (R47). -/
def ReadAnswers (s : State) (a w : Word) (t : State) : Prop :=
  (a = s.cfg.kbsrAddr ∧ w = (if s.inq = [] then 0x0000 else 0x8000) ∧ t = s) ∨
  (a ≠ s.cfg.kbsrAddr ∧ a = s.cfg.kbdrAddr ∧
    (∃ c : Byte, s.inq = c :: t.inq ∧ w = c.zeroExtend 16) ∧ t.cell a = w ∧ KeepsCellsExcept [a] s t ∧
    KeepsRegsExcept [] s t ∧ t.cond = s.cond ∧ t.pc = s.pc ∧ t.out = s.out ∧ t.arrivals = s.arrivals ∧
    KeepsRun s t) ∨
  (a ≠ s.cfg.kbsrAddr ∧ a ≠ s.cfg.kbdrAddr ∧ w = s.cell a ∧ t = s)

/-- How an instruction that waits for an input byte leaves the state it began to execute in: only pc moves, back to the
instruction's own address (R182, R207, log entry 17). -/
def WaitsFrom (s t : State) : Prop := t = s.setPc (s.pc - 1)

end Sys2Proof.Machine

namespace Sys2Proof

/-! Which instruction writes what. -/

/-- R27: the register whose new value COND is recomputed from, for the seven instructions that do so. -/
def Instr.flagReg : Instr → Option Reg
  | .addReg d _ _ => some d
  | .addImm d _ _ => some d
  | .andReg d _ _ => some d
  | .andImm d _ _ => some d
  | .not d _ => some d
  | .ld d _ => some d
  | .ldi d _ => some d
  | .ldr d _ _ => some d
  | .lea d _ => some d
  | .br _ _ _ _ => none
  | .st _ _ => none
  | .jsr _ => none
  | .jsrr _ => none
  | .str _ _ _ => none
  | .rti _ => none
  | .sti _ _ => none
  | .jmp _ => none
  | .res _ => none
  | .trap _ => none
  | .getc => none
  | .out => none
  | .puts => none
  | .inChar => none
  | .putsp => none
  | .halt => none

/-- R22, the column "writes". -/
def Instr.regsWritten : Instr → List Reg
  | .addReg d _ _ => [d]
  | .addImm d _ _ => [d]
  | .andReg d _ _ => [d]
  | .andImm d _ _ => [d]
  | .not d _ => [d]
  | .ld d _ => [d]
  | .ldi d _ => [d]
  | .ldr d _ _ => [d]
  | .lea d _ => [d]
  | .br _ _ _ _ => []
  | .st _ _ => []
  | .jsr _ => [.r7]
  | .jsrr _ => [.r7]
  | .str _ _ _ => []
  | .rti _ => []
  | .sti _ _ => []
  | .jmp _ => []
  | .res _ => []
  | .trap v => if v = 0x20 ∨ v = 0x23 then [.r7, .r0] else [.r7]
  | .getc => [.r7, .r0]
  | .out => [.r7]
  | .puts => [.r7]
  | .inChar => [.r7, .r0]
  | .putsp => [.r7]
  | .halt => [.r7]

/-- R171, R174: the instructions that take an input character into R0. -/
def Instr.readsChar (i : Instr) : Prop :=
  i = .getc ∨ i = .inChar ∨ i = .trap 0x20 ∨ i = .trap 0x23

/-- R35: the instructions that write the output stream: OUT, PUTS, PUTSP and IN. -/
def Instr.writesOutput (i : Instr) : Prop :=
  i = .out ∨ i = .puts ∨ i = .inChar ∨ i = .putsp ∨
    i = .trap 0x21 ∨ i = .trap 0x22 ∨ i = .trap 0x23 ∨ i = .trap 0x24

end Sys2Proof

namespace Sys2Proof.Machine

/-! The string loops of R173 and R175 as relations, with no bound on their length. -/

/-- The loop of R173 and R175 run to its end: from address `a` in state `s` it exits in state `t`. `bytes` says what
each Word read does. -/
inductive StringEnds (bytes : Word → List Byte × Bool) : Word → State → State → Prop where
  /-- A Word at which the loop exits. -/
  | stop {a : Word} {s t : State} {w : Word} (hread : s.memRead a = some (w, t)) (hexit : (bytes w).2 = false) :
      StringEnds bytes a s { t with out := t.out ++ (bytes w).1 }
  /-- A Word after which the loop goes on at the next address. -/
  | more {a : Word} {s t u : State} {w : Word} (hread : s.memRead a = some (w, t)) (hgo : (bytes w).2 = true)
      (hrest : StringEnds bytes (a + 1) { t with out := t.out ++ (bytes w).1 } u) : StringEnds bytes a s u

/-- The loop comes to a read that waits for an input byte. -/
inductive StringWaits (bytes : Word → List Byte × Bool) : Word → State → Prop where
  | here {a : Word} {s : State} (hread : s.memRead a = none) : StringWaits bytes a s
  | later {a : Word} {s t : State} {w : Word} (hread : s.memRead a = some (w, t)) (hgo : (bytes w).2 = true)
      (hrest : StringWaits bytes (a + 1) { t with out := t.out ++ (bytes w).1 }) : StringWaits bytes a s

/-- R207: in the state `s` of its execute phase the instruction needs an input byte that is not there: LD, LDR, LDI (at
either read) and STI read the data address, GETC and IN take a character, a string comes to the data address, and the
input is used up. No other instruction can wait. -/
def State.lacksInput (s : State) : Instr → Prop
  | .ld _ off => s.inputMissing (s.pc + off.signExtend 16)
  | .ldi _ off =>
    s.inputMissing (s.pc + off.signExtend 16) ∨
      ∃ ea u, ReadAnswers s (s.pc + off.signExtend 16) ea u ∧ u.inputMissing ea
  | .ldr _ b off => s.inputMissing (s.x b + off.signExtend 16)
  | .sti _ off => s.inputMissing (s.pc + off.signExtend 16)
  | .getc => s.inq = []
  | .inChar => s.inq = []
  | .puts => StringWaits putsBytes (s.x .r0) (s.setX .r7 s.pc)
  | .putsp => StringWaits (putspBytes s.cfg.putspStop) (s.x .r0) (s.setX .r7 s.pc)
  | .trap v =>
    ((v = 0x20 ∨ v = 0x23) ∧ s.inq = []) ∨ (v = 0x22 ∧ StringWaits putsBytes (s.x .r0) (s.setX .r7 s.pc)) ∨
      (v = 0x24 ∧ StringWaits (putspBytes s.cfg.putspStop) (s.x .r0) (s.setX .r7 s.pc))
  | .addReg _ _ _ => False
  | .addImm _ _ _ => False
  | .andReg _ _ _ => False
  | .andImm _ _ _ => False
  | .not _ _ => False
  | .lea _ _ => False
  | .br _ _ _ _ => False
  | .st _ _ => False
  | .str _ _ _ => False
  | .jsr _ => False
  | .jsrr _ => False
  | .jmp _ => False
  | .rti _ => False
  | .res _ => False
  | .out => False
  | .halt => False

/-- The plain cells (no keyboard register) from `a` upwards, modulo 2^16, hold these Words. -/
def State.holds (s : State) (a : Word) : List Word → Prop
  | [] => True
  | w :: ws => ¬ s.isDevice a ∧ s.cell a = w ∧ s.holds (a + 1) ws

/-- R175: characters packed two in a Word, the low byte first, a last odd one under a zero high byte. -/
def packChars : List Byte → List Word
  | [] => []
  | [lo] => [zext8 lo]
  | lo :: hi :: cs => (hi ++ lo : Word) :: packChars cs

end Sys2Proof.Machine
end

