-- ==== Sys2Proof/Certificates/Slice0/Obligations.lean ====
section
/-! DEFINITION. The statements for the provers. Each docstring names the rule of spec/ it formalises, and the log entry or
the decision of spec/92_eei_decisions.md where a clause rests on a choice. Statements about every state hold for every
setting of the open parameters (they stand in State), and for every schedule of arriving input. -/

open Sys2Proof Sys2Proof.Machine

/-! ## Encoding -/

/-- Eight Words assembled by hand from R72 and R73 (spec/95_test_vectors.md V1, V4, V15, V20, V32, V50, V87, V94), and the
numbering of the register selectors (R75). Opcode numbers and field positions: decisions D1, D2, log entry 7. -/
def Obligations.SampleWordsDecode : Prop :=
  decode 0x1401 = .addReg .r2 .r0 .r1 ∧
  decode 0x127F = .addImm .r1 .r1 0x1F ∧
  decode 0x96BF = .not .r3 .r2 ∧
  decode 0x0402 = .br false true false 2 ∧
  decode 0x4801 = .jsr 1 ∧
  decode 0x6440 = .ldr .r2 .r1 0 ∧
  decode 0xF025 = .halt ∧
  decode 0x8ABC = .rti 0xABC ∧
  [Reg.r0, .r1, .r2, .r3, .r4, .r5, .r6, .r7].map Reg.toBits = [0, 1, 2, 3, 4, 5, 6, 7]

/-- R73, R82: decoding the Word of a well-formed instruction gives it back, every operand at every value. -/
def Obligations.DecodeInvertsEncode : Prop :=
  ∀ i : Instr, i.wellFormed = true → decode (encode i) = i

/-- R82: every Word decodes to a well-formed instruction, fits that instruction's row of the opcode table, and fits
exactly one of the 19 base rows. -/
def Obligations.EveryWordFitsOneRow : Prop :=
  ∀ w : Word, (decode w).wellFormed = true ∧ (decode w).row.fits w = true ∧
    (baseRows.filter fun r => r.fits w).length = 1

/-- R73: no bit that a format uses is dropped: encoding what a Word decodes to gives the Word back on those bits. -/
def Obligations.EncodeKeepsUsedBits : Prop :=
  ∀ w : Word, encode (decode w) &&& (decode w).usedBits = w &&& (decode w).usedBits

/-- R77 (decision D6, log entry 8): "an instruction Word with any value there executes exactly as the Word with the
standard value there": flipping unused bits does not change what a Word decodes to. -/
def Obligations.UnusedBitsIgnored : Prop :=
  ∀ w m : Word, m &&& (decode w).usedBits = 0 → decode (w ^^^ m) = decode w

/-- R72, R73 formats A to C, R76: how every Word of opcodes 0001, 0101 and 1001 is read. Opcode numbers and positions are
decisions D1, D2 (log entry 7). That the register forms hold whatever ir[4:3] is, and NOT whatever ir[5:0] is, is
decision D6, a choice (log entry 8). -/
def Obligations.OperateWordsDecode : Prop :=
  ∀ (w : Word) (d a b : Reg) (imm : BitVec 5),
    w.extractLsb' 9 3 = d.toBits → w.extractLsb' 6 3 = a.toBits → w.extractLsb' 0 3 = b.toBits →
    w.extractLsb' 0 5 = imm →
    (w.extractLsb' 12 4 = 0b0001 → w.extractLsb' 5 1 = 0 → decode w = .addReg d a b) ∧
    (w.extractLsb' 12 4 = 0b0001 → w.extractLsb' 5 1 = 1 → decode w = .addImm d a imm) ∧
    (w.extractLsb' 12 4 = 0b0101 → w.extractLsb' 5 1 = 0 → decode w = .andReg d a b) ∧
    (w.extractLsb' 12 4 = 0b0101 → w.extractLsb' 5 1 = 1 → decode w = .andImm d a imm) ∧
    (w.extractLsb' 12 4 = 0b1001 → decode w = .not d a)

/-- R72, R73 formats D and G to I, R76: how every Word of opcodes 0000, 1100 and 0100 is read. Opcode numbers and positions
are decisions D1, D2 (log entry 7). That JMP holds whatever ir[11:9] and ir[5:0] are, and JSRR whatever ir[10:9] and
ir[5:0] are, is decision D6, a choice (log entry 8). -/
def Obligations.ControlWordsDecode : Prop :=
  ∀ (w : Word) (n z p : Bool) (base : Reg) (off9 : BitVec 9) (off11 : BitVec 11),
    w.extractLsb' 11 1 = BitVec.ofBool n → w.extractLsb' 10 1 = BitVec.ofBool z →
    w.extractLsb' 9 1 = BitVec.ofBool p → w.extractLsb' 6 3 = base.toBits →
    w.extractLsb' 0 9 = off9 → w.extractLsb' 0 11 = off11 →
    (w.extractLsb' 12 4 = 0b0000 → decode w = .br n z p off9) ∧
    (w.extractLsb' 12 4 = 0b1100 → decode w = .jmp base) ∧
    (w.extractLsb' 12 4 = 0b0100 → w.extractLsb' 11 1 = 1 → decode w = .jsr off11) ∧
    (w.extractLsb' 12 4 = 0b0100 → w.extractLsb' 11 1 = 0 → decode w = .jsrr base)

/-- R72, R73 formats E and F: how every Word of the load, store and address opcodes is read (decisions D1, D2). -/
def Obligations.LoadStoreWordsDecode : Prop :=
  ∀ (w : Word) (r base : Reg) (off9 : BitVec 9) (off6 : BitVec 6),
    w.extractLsb' 9 3 = r.toBits → w.extractLsb' 6 3 = base.toBits →
    w.extractLsb' 0 9 = off9 → w.extractLsb' 0 6 = off6 →
    (w.extractLsb' 12 4 = 0b0010 → decode w = .ld r off9) ∧
    (w.extractLsb' 12 4 = 0b0011 → decode w = .st r off9) ∧
    (w.extractLsb' 12 4 = 0b0110 → decode w = .ldr r base off6) ∧
    (w.extractLsb' 12 4 = 0b0111 → decode w = .str r base off6) ∧
    (w.extractLsb' 12 4 = 0b1010 → decode w = .ldi r off9) ∧
    (w.extractLsb' 12 4 = 0b1011 → decode w = .sti r off9) ∧
    (w.extractLsb' 12 4 = 0b1110 → decode w = .lea r off9)

/-- R73 formats J and K, R78, R79, R170: how every Word of opcodes 1111, 1000 and 1101 is read. The numbers of RTI and RES
and the six vectors are the source's; 1111 is decision D1 (log entry 7). That the clauses of opcode 1111 hold whatever
ir[11:8] is, is decision D6, a choice (log entry 8). -/
def Obligations.TrapWordsDecode : Prop :=
  ∀ (w : Word) (v : BitVec 8) (low : BitVec 12), w.extractLsb' 0 8 = v → w.extractLsb' 0 12 = low →
    (w.extractLsb' 12 4 = 0b1000 → decode w = .rti low) ∧
    (w.extractLsb' 12 4 = 0b1101 → decode w = .res low) ∧
    (w.extractLsb' 12 4 = 0b1111 →
      (v = 0x20 → decode w = .getc) ∧ (v = 0x21 → decode w = .out) ∧ (v = 0x22 → decode w = .puts) ∧
      (v = 0x23 → decode w = .inChar) ∧ (v = 0x24 → decode w = .putsp) ∧ (v = 0x25 → decode w = .halt) ∧
      (v.toNat < 0x20 ∨ 0x25 < v.toNat → decode w = .trap v))

/-! ## The step -/

/-- R201, R202: a step of a RUNNING core is `exec` of the Word a `MemRead` at pc answers, at the state with pc
incremented; a fetch from the data address with no input waits. Choices it rests on: the environment's bytes arrive
first (log entry 18); the fetch goes through the keyboard registers (decision D11, log entry 12); the status Word is
exactly 0x8000 (decision D5, log entry 11); a data read is zero-extended and stored in the hidden cell (decision D13,
log entry 14); a wait leaves the state as it was (log entry 17). -/
def Obligations.StepRunsDecodedInstruction : Prop :=
  ∀ s : State, s.run = .running →
    (s.pc ≠ s.cfg.kbsrAddr → s.pc ≠ s.cfg.kbdrAddr →
      step s = exec (decode (s.cell s.pc)) (s.arrive.setPc (s.pc + 1))) ∧
    (s.pc = s.cfg.kbsrAddr →
      step s = exec (decode (if s.arrive.inq = [] then 0x0000 else 0x8000)) (s.arrive.setPc (s.pc + 1))) ∧
    (s.pc ≠ s.cfg.kbsrAddr → s.pc = s.cfg.kbdrAddr → s.arrive.inq = [] → step s = .next s.arrive) ∧
    (s.pc ≠ s.cfg.kbsrAddr → s.pc = s.cfg.kbdrAddr → ∀ c rest, s.arrive.inq = c :: rest →
      step s = exec (decode (c.zeroExtend 16))
        { s.arrive.setCell s.pc (c.zeroExtend 16) with inq := rest, pc := s.pc + 1 })

/-- R201: when the cell at pc (no keyboard register) holds the Word of a well-formed instruction, the step is `exec` of
that instruction, pc past it. That the environment's bytes arrive first is the model's choice (log entry 18). -/
def Obligations.EncodedInstructionRuns : Prop :=
  ∀ (s : State) (i : Instr), s.run = .running → ¬ s.isDevice s.pc → i.wellFormed = true →
    s.cell s.pc = encode i → step s = exec i (s.arrive.setPc (s.pc + 1))

/-- The invariant (distinct keyboard addresses, R7; canonical memory, R33, log entry 1) is kept by every step, from every
state that has it. -/
def Obligations.StepKeepsInvariant : Prop :=
  ∀ s t : State, s.Inv → step s = .next t → t.Inv

/-- The reset state has the invariant, under the default parameters and under every setting R7 allows. -/
def Obligations.ResetMeetsInvariant : Prop :=
  State.reset.Inv ∧ ∀ c : Config, c.wf → (State.resetWith c).Inv

/-- R82, R225: no fault, no refusal: from every state with the invariant the step answers a next state. In particular no
string routine runs out of its bound on reads (log entry 20). -/
def Obligations.EveryStepAnswers : Prop :=
  ∀ s : State, s.Inv → ∃ t, step s = .next t

/-- R206: HALTED is terminal: whatever number of steps is asked for, the state does not change, only a new reset makes the
core RUNNING again, and the outcome is success when `halt_reason = Halt`, else failure with the reason. -/
def Obligations.HaltedIsTerminal : Prop :=
  ∀ (s : State) (r : HaltReason), s.run = .halted r →
    (∀ k, Host.Core.run Sys2Proof.core k s = Host.Outcome.next s) ∧
    (r = .halt → s.outcome = some .success) ∧ (r ≠ .halt → s.outcome = some (.failure r)) ∧
    s.hostReset.run = .running

/-- R205: the transitions to HALTED are exactly three: HALT, an invalid opcode, an unrecognised vector, each with its
reason. -/
def Obligations.ThreeWaysToHalt : Prop :=
  ∀ (s t : State) (r : HaltReason), s.run = .running → step s = .next t →
    (t.run = .halted r ↔ ∃ ir u, s.arrive.fetch = some (ir, u) ∧
      ((r = .halt ∧ decode ir = .halt) ∨
       (r = .invalidOpcode ir ∧ ∃ low, decode ir = .rti low ∨ decode ir = .res low) ∨
       (∃ v, r = .invalidTrapVector v ∧ decode ir = .trap v)))

/-- R24: every step adds 1 to PC, modulo 2^16, before the opcode is examined; after that only BR when taken, JMP, JSR and
JSRR write PC. Where the instruction needs an input byte that is not there (`lacksInput`), the step has not happened yet
(R207), and that the state is then the one in which the environment's bytes had arrived is the model's choice (log
entry 17). -/
def Obligations.PcIsIncrementedAndKept : Prop :=
  ∀ (s u t : State) (ir : Word), s.run = .running → s.arrive.fetch = some (ir, u) → step s = .next t →
    u.pc = s.pc + 1 ∧
    ((∀ n z p off, decode ir = .br n z p off → branchTaken n z p s.cond = false) → (∀ b, decode ir ≠ .jmp b) →
      (∀ o, decode ir ≠ .jsr o) → (∀ b, decode ir ≠ .jsrr b) →
      t.pc = s.pc + 1 ∨ (u.lacksInput (decode ir) ∧ t = s.arrive))

/-- R182, R207 (decision D14, log entry 17): a step whose instruction waits leaves exactly the state in which the
environment's bytes had arrived: nothing the fetch did remains. -/
def Obligations.WaitingStepChangesNothing : Prop :=
  ∀ (s u v : State) (ir : Word), s.run = .running → s.arrive.fetch = some (ir, u) →
    exec (decode ir) u = .next v → WaitsFrom u v → step s = .next s.arrive

/-- R207, R208: a GETC or IN with no input and none to come is stuck: RUNNING for ever, the state unchanged; and when the
environment delivers a byte the same step completes with it. The schedule of arriving bytes, and that a wait leaves
nothing behind, are choices (log entries 17, 18); that no end-of-input value exists is decision D14 (log entry 19). -/
def Obligations.StuckUntilInput : Prop :=
  ∀ (s : State) (i : Instr), (i = .getc ∨ i = .inChar) → s.run = .running → ¬ s.isDevice s.pc →
    s.cell s.pc = encode i → s.inq = [] → s.arrivals = [] →
    (∀ k, Host.Core.run Sys2Proof.core k s = Host.Outcome.next s) ∧
    ∀ c bs, ∃ t, step (s.deliver (c :: bs)) = .next t ∧ t.x .r0 = c.zeroExtend 16 ∧ t.inq = bs ∧
      t.pc = s.pc + 1 ∧ t.run = .running

/-- R35, R51, R181, decision D24: over one step of a RUNNING core the input stream is what was there and what arrived, less
a front part, and the output stream only grows at its end. The last two clauses are about fields of the model's own: the
schedule of arriving bytes loses its head (log entry 18), and the setting of the parameters stays (log entry 3). -/
def Obligations.StreamsMoveOneWay : Prop :=
  ∀ s t : State, s.run = .running → step s = .next t →
    (∃ used, s.inq ++ s.arrivals.headD [] = used ++ t.inq) ∧ (∃ written, t.out = s.out ++ written) ∧
    t.arrivals = s.arrivals.tail ∧ t.cfg = s.cfg

/-! ## Whole-machine rules -/

/-- R27, R107: after ADD, AND, NOT, LD, LDI, LDR or LEA, COND matches the new value of the destination, by the table of
R107; GETC and IN do so from R0 exactly when `TRAP_INPUT_SETS_FLAGS` is true; every other instruction leaves COND
alone, JSR, JSRR and TRAP too, though they write R7 (conflict C1, DEDUCED, log entry 16). Where the instruction needs an
input byte that is not there (`lacksInput`) it has not executed yet (R207), and the state it answers then is the
model's choice (log entry 17). -/
def Obligations.CondFollowsResult : Prop :=
  ∀ (i : Instr) (s t : State), exec i s = .next t → (s.lacksInput i ∧ WaitsFrom s t) ∨
    ((∀ d, i.flagReg = some d → FlagTable (t.x d) t.cond) ∧
     (i.readsChar → s.cfg.trapInputSetsFlags = true → FlagTable (t.x .r0) t.cond) ∧
     (i.flagReg = none → ¬ (i.readsChar ∧ s.cfg.trapInputSetsFlags = true) → t.cond = s.cond))

/-- R28: no instruction but BR reads COND: from two states that differ in COND alone it gives next states that differ in
COND at most, and then only if it leaves COND as it was. -/
def Obligations.CondReadOnlyByBr : Prop :=
  ∀ (i : Instr) (s t : State) (c : Cond), (∀ n z p off, i ≠ .br n z p off) → exec i s = .next t →
    ∃ t', exec i { s with cond := c } = .next t' ∧ { t' with cond := t.cond } = t ∧
      (t'.cond = t.cond ∨ (t'.cond = c ∧ t.cond = s.cond))

/-- R22, the column "writes", and R9: an instruction changes no general register but those its row lists. -/
def Obligations.OnlyListedRegistersChange : Prop :=
  ∀ (i : Instr) (s t : State), exec i s = .next t → KeepsRegsExcept i.regsWritten s t

/-- R50, R180, R9: no instruction but ST, STI and STR changes a memory cell, the hidden cell behind the data address
apart, which a read of that address stores into (R46, log entry 14). -/
def Obligations.OnlyStoresChangeMemory : Prop :=
  ∀ (i : Instr) (s t : State), (∀ r o, i ≠ .st r o) → (∀ r o, i ≠ .sti r o) → (∀ r b o, i ≠ .str r b o) →
    exec i s = .next t → KeepsCellsExcept [s.cfg.kbdrAddr] s t

/-- R35: only OUT, PUTS, PUTSP and IN write the output stream. That HALT, which is among the others here, prints nothing is
decision D18, a choice (log entry 21). -/
def Obligations.OnlyConsoleRoutinesWriteOutput : Prop :=
  ∀ (i : Instr) (s t : State), exec i s = .next t → ¬ i.writesOutput → t.out = s.out

/-- R49 (decision D12, log entry 13): a write to a keyboard register's address raises nothing and is invisible to every later
instruction: it changes the two hidden cells at most, and two states that agree but for these cells answer every read
alike and step to states that agree but for these cells. -/
def Obligations.ReservedWriteIsInvisible : Prop :=
  (∀ (s : State) (a v : Word), s.isDevice a → AgreeButHidden s (s.memWrite a v)) ∧
  ∀ s t : State, AgreeButHidden s t →
    (∀ b, (t.memRead b).map Prod.fst = (s.memRead b).map Prod.fst) ∧
    (∀ s', step s = .next s' → ∃ t', step t = .next t' ∧ AgreeButHidden s' t') ∧
    ∀ f, step s = .fault f → step t = .fault f

/-- Log entry 1: two canonical memories with the same cells are the same list, so equal memories are equal data. -/
def Obligations.CanonicalMemoryIsUnique : Prop :=
  ∀ (fill : Word) (m m' : Memory), m.wf fill → m'.wf fill → (∀ a, m.get fill a = m'.get fill a) → m = m'

/-! ## Operate instructions -/

/-- R100, R101: the sum modulo 2^16, COND from it, and nothing else changed (R9); dst may be a source. -/
def Obligations.AddResult : Prop :=
  ∀ s : State,
    (∀ d a b, ∃ t, exec (.addReg d a b) s = .next t ∧ WritesResultOnly d (s.x a + s.x b) s t) ∧
    (∀ d a (imm : BitVec 5), ∃ t, exec (.addImm d a imm) s = .next t ∧
      WritesResultOnly d (s.x a + imm.signExtend 16) s t)

/-- R102, R103: the bitwise AND, the immediate sign-extended first; COND from it; nothing else changed. -/
def Obligations.AndResult : Prop :=
  ∀ s : State,
    (∀ d a b, ∃ t, exec (.andReg d a b) s = .next t ∧ WritesResultOnly d (s.x a &&& s.x b) s t) ∧
    (∀ d a (imm : BitVec 5), ∃ t, exec (.andImm d a imm) s = .next t ∧
      WritesResultOnly d (s.x a &&& imm.signExtend 16) s t)

/-- R104: "all 16 bits inverted"; COND from the result; nothing else changed. -/
def Obligations.NotResult : Prop :=
  ∀ (s : State) (d a : Reg), ∃ t v, exec (.not d a) s = .next t ∧ WritesResultOnly d v s t ∧
    ∀ i < 16, v.getLsbD i = !(s.x a).getLsbD i

/-- R8, spec/95_test_vectors.md S1: `sext_N` keeps the N bits, copies bit N-1 into the others, and is the 16-bit code of
the field read as a signed number (N = 5, 6, 9, 11 are instances). -/
def Obligations.SignExtensionValue : Prop :=
  ∀ (n : Nat) (v : BitVec n), 1 ≤ n → n ≤ 16 →
    (∀ i < 16, (sext v).getLsbD i = if i < n then v.getLsbD i else v.getLsbD (n - 1)) ∧ (sext v).toInt = v.toInt

/-! ## Control transfer -/

/-- R120: taken exactly when n and NEG, z and ZRO, or p and POS; then pc is pc_inc plus the signed offset, else pc_inc;
nothing else changes. -/
def Obligations.BranchRule : Prop :=
  ∀ (n z p : Bool) (off : BitVec 9) (s : State),
    ((n = true ∧ s.cond = .neg) ∨ (z = true ∧ s.cond = .zro) ∨ (p = true ∧ s.cond = .pos) →
      exec (.br n z p off) s = .next { s with pc := s.pc + off.signExtend 16 }) ∧
    (¬ ((n = true ∧ s.cond = .neg) ∨ (z = true ∧ s.cond = .zro) ∨ (p = true ∧ s.cond = .pos)) →
      exec (.br n z p off) s = .next s)

/-- R121, R122, R123: JMP goes to the base register; JSR and JSRR put pc_inc in R7 and go to pc_inc plus the offset, to
the base register. JSRR reads the base after R7 is written, so `JSRR R7` goes on at pc_inc (decision D7, log entry
15). COND, the other registers, memory and the streams are unchanged. -/
def Obligations.JumpAndLink : Prop :=
  ∀ s : State,
    (∀ b, exec (.jmp b) s = .next { s with pc := s.x b }) ∧
    (∀ o : BitVec 11, ∃ t, exec (.jsr o) s = .next t ∧ t.x .r7 = s.pc ∧ t.pc = s.pc + o.signExtend 16 ∧
      KeepsRegsExcept [.r7] s t ∧ t.cond = s.cond ∧ KeepsCellsExcept [] s t ∧ KeepsStreams s t ∧ KeepsRun s t) ∧
    (∀ b, ∃ t, exec (.jsrr b) s = .next t ∧ t.x .r7 = s.pc ∧ (b ≠ .r7 → t.pc = s.x b) ∧ (b = .r7 → t.pc = s.pc) ∧
      KeepsRegsExcept [.r7] s t ∧ t.cond = s.cond ∧ KeepsCellsExcept [] s t ∧ KeepsStreams s t ∧ KeepsRun s t)

/-- R125, on whole steps: the base of every PC-relative computation (BR, JSR, LD, LDI, LEA, ST, STI) of the instruction at
address A is A + 1. Choices it rests on: the environment's bytes arrive before the step (log entry 18); in the LD, LDI
and STI clauses a status read answers exactly 0x8000 (decision D5, log entry 11), and a data read answers the byte
zero-extended and stores it in the hidden cell (decision D13, log entry 14); a store at a keyboard register's address
goes to the hidden cell (decision D12, log entry 13). -/
def Obligations.PcRelativeBase : Prop :=
  ∀ s u : State, s.run = .running → ¬ s.isDevice s.pc → u = s.arrive.setPc (s.pc + 1) →
    (∀ n z p off, s.cell s.pc = encode (.br n z p off) → branchTaken n z p s.cond = true →
      ∃ t, step s = .next t ∧ t.pc = s.pc + 1 + off.signExtend 16) ∧
    (∀ off, s.cell s.pc = encode (.jsr off) → ∃ t, step s = .next t ∧ t.pc = s.pc + 1 + off.signExtend 16) ∧
    (∀ d off, s.cell s.pc = encode (.ld d off) → ¬ u.inputMissing (s.pc + 1 + off.signExtend 16) →
      ∃ w v t, ReadAnswers u (s.pc + 1 + off.signExtend 16) w v ∧ step s = .next t ∧ t.x d = w) ∧
    (∀ d off, s.cell s.pc = encode (.ldi d off) → ¬ u.inputMissing (s.pc + 1 + off.signExtend 16) →
      ∃ ea v, ReadAnswers u (s.pc + 1 + off.signExtend 16) ea v ∧
        (¬ v.inputMissing ea → ∃ w v' t, ReadAnswers v ea w v' ∧ step s = .next t ∧ t.x d = w)) ∧
    (∀ d off, s.cell s.pc = encode (.lea d off) →
      ∃ t, step s = .next t ∧ t.x d = s.pc + 1 + off.signExtend 16) ∧
    (∀ r off, s.cell s.pc = encode (.st r off) →
      ∃ t, step s = .next t ∧ t.cell (s.pc + 1 + off.signExtend 16) = s.x r) ∧
    (∀ r off, s.cell s.pc = encode (.sti r off) → ¬ u.inputMissing (s.pc + 1 + off.signExtend 16) →
      ∃ ea v t, ReadAnswers u (s.pc + 1 + off.signExtend 16) ea v ∧ step s = .next t ∧ t.cell ea = s.x r)

/-! ## Loads, stores, addresses -/

/-- R140, R142, with the read of R44 to R47: LD and LDR load the whole Word `MemRead` answers at pc_inc + sext_9(off), at
x[base] + sext_6(off), and recompute COND from it; nothing changes but dst, COND and what the read itself changes. They
complete whenever the read does not wait. Choices in the read (`ReadAnswers`): a status read answers exactly 0x8000
(decision D5, log entry 11), and a data read answers the byte zero-extended and stores it in the hidden cell (decision
D13, log entry 14). -/
def Obligations.LoadResult : Prop :=
  ∀ s : State,
    (∀ d (off : BitVec 9), ¬ s.inputMissing (s.pc + off.signExtend 16) →
      ∃ w u t, exec (.ld d off) s = .next t ∧ ReadAnswers s (s.pc + off.signExtend 16) w u ∧
        WritesResultOnly d w u t) ∧
    (∀ d b (off : BitVec 6), ¬ s.inputMissing (s.x b + off.signExtend 16) →
      ∃ w u t, exec (.ldr d b off) s = .next t ∧ ReadAnswers s (s.x b + off.signExtend 16) w u ∧
        WritesResultOnly d w u t)

/-- R141: LDI reads the pointer at pc_inc + sext_9(off), then the datum at the address it holds, in that order and each
through `MemRead`; dst and COND are the datum's. Choices in both reads (`ReadAnswers`): a status read answers exactly
0x8000 (decision D5, log entry 11), and a data read answers the byte zero-extended and stores it in the hidden cell
(decision D13, log entry 14). -/
def Obligations.LoadIndirectResult : Prop :=
  ∀ (s : State) (d : Reg) (off : BitVec 9), ¬ s.inputMissing (s.pc + off.signExtend 16) →
    ∃ ea u, ReadAnswers s (s.pc + off.signExtend 16) ea u ∧
      (¬ u.inputMissing ea →
        ∃ w v t, exec (.ldi d off) s = .next t ∧ ReadAnswers u ea w v ∧ WritesResultOnly d w v t)

/-- R46, R148, R182, R207: LD, LDR, LDI (either read) and STI wait while a read of the data address finds no input; that the
state is then the one before the fetch increment is the model's choice (log entry 17). The pointer read of LDI's second
clause rests on decisions D5 and D13, choices too (log entries 11 and 14). -/
def Obligations.MemoryInstructionsWait : Prop :=
  ∀ s : State, s.cfg.wf →
    (∀ d (off : BitVec 9), s.inputMissing (s.pc + off.signExtend 16) →
      exec (.ld d off) s = .next (s.setPc (s.pc - 1)) ∧ exec (.ldi d off) s = .next (s.setPc (s.pc - 1)) ∧
      exec (.sti d off) s = .next (s.setPc (s.pc - 1))) ∧
    (∀ d b (off : BitVec 6), s.inputMissing (s.x b + off.signExtend 16) →
      exec (.ldr d b off) s = .next (s.setPc (s.pc - 1))) ∧
    (∀ d (off : BitVec 9) ea u, ReadAnswers s (s.pc + off.signExtend 16) ea u → u.inputMissing ea →
      exec (.ldi d off) s = .next (s.setPc (s.pc - 1)))

/-- R143: LEA delivers pc_inc + sext_9(off) itself, sets COND from it, and reads no memory. -/
def Obligations.LeaResult : Prop :=
  ∀ (s : State) (d : Reg) (off : BitVec 9),
    ∃ t, exec (.lea d off) s = .next t ∧ WritesResultOnly d (s.pc + off.signExtend 16) s t

/-- R144, R146, R48, R49: ST and STR store the whole register at pc_inc + sext_9(off), at x[base] + sext_6(off), whatever
the address; every other cell, every register, COND, pc and the streams are unchanged. That a store at a keyboard
register's address goes to the hidden cell is decision D12, a choice (log entry 13). -/
def Obligations.StoreResult : Prop :=
  ∀ s : State,
    (∀ r (off : BitVec 9), ∃ t, exec (.st r off) s = .next t ∧
      StoresOnly (s.pc + off.signExtend 16) (s.x r) s t) ∧
    (∀ r b (off : BitVec 6), ∃ t, exec (.str r b off) s = .next t ∧
      StoresOnly (s.x b + off.signExtend 16) (s.x r) s t)

/-- R145: STI reads the pointer at pc_inc + sext_9(off) through `MemRead`, then stores the register at the address it
holds; nothing else changes but what the read itself changes. Choices: in the pointer read (`ReadAnswers`) a status read
answers exactly 0x8000 (decision D5, log entry 11), and a data read answers the byte zero-extended and stores it in the
hidden cell (decision D13, log entry 14); a store at a keyboard register's address goes to the hidden cell (decision
D12, log entry 13). -/
def Obligations.StoreIndirectResult : Prop :=
  ∀ (s : State) (r : Reg) (off : BitVec 9), ¬ s.inputMissing (s.pc + off.signExtend 16) →
    ∃ ea u t, ReadAnswers s (s.pc + off.signExtend 16) ea u ∧ exec (.sti r off) s = .next t ∧
      StoresOnly ea (s.x r) u t

/-- R58: a store to the next instruction's address is seen by the very next fetch, with nothing in between. That the
environment's bytes arrive before each step is the model's choice (log entry 18). -/
def Obligations.StoreSeenByNextFetch : Prop :=
  ∀ (s : State) (r : Reg), s.run = .running → ¬ s.isDevice s.pc → ¬ s.isDevice (s.pc + 1) →
    s.cell s.pc = encode (.st r 0) →
    ∃ t, step s = .next t ∧ t.pc = s.pc + 1 ∧ step t = exec (decode (s.x r)) (t.arrive.setPc (s.pc + 2))

/-- R141, spec/95_test_vectors.md S4: after ST has written B at A and then C at B, LDI through A yields C. (A and B are
plain and distinct addresses: otherwise the second ST overwrites the pointer, or the reads are device reads.) -/
def Obligations.LdiRoundTrip : Prop :=
  ∀ (s s1 s2 : State) (ra rb d : Reg) (o1 o2 o3 : BitVec 9) (p2 p3 A B : Word),
    A = s.pc + o1.signExtend 16 → B = s.x ra → B = p2 + o2.signExtend 16 → A = p3 + o3.signExtend 16 →
    A ≠ B → ¬ s.isDevice A → ¬ s.isDevice B →
    exec (.st ra o1) s = .next s1 → exec (.st rb o2) (s1.setPc p2) = .next s2 →
    ∃ t, exec (.ldi d o3) (s2.setPc p3) = .next t ∧ t.x d = s.x rb

/-! ## TRAP, its routines, the invalid opcodes -/

/-- R170, R77: a Word of opcode 1111 runs what its low eight bits select, whatever ir[11:8] holds: executing what it decodes
to is executing TRAP with those bits as vector (opcode number: decision D1, log entry 7; unused bits: D6, log entry 8).
That `exec` gives the ill-formed terms `trap 0x20` to `trap 0x25` the meaning of the six routines is the model's choice
(log entry 29). -/
def Obligations.TrapDispatchesOnVector : Prop :=
  ∀ (u : BitVec 4) (v : BitVec 8) (s : State), exec (decode (0b1111#4 ++ u ++ v)) s = exec (.trap v) s

/-- R171: GETC takes the head of the input into R0, zero-extended, without echo; R7 is pc_inc; COND follows R0 exactly when
`TRAP_INPUT_SETS_FLAGS` is true (decision D8, log entry 6). -/
def Obligations.GetcResult : Prop :=
  ∀ (s : State) (c : Byte) (rest : List Byte), s.inq = c :: rest →
    ∃ t, exec .getc s = .next t ∧ t.x .r0 = c.zeroExtend 16 ∧ t.x .r7 = s.pc ∧ t.inq = rest ∧ t.out = s.out ∧
      (s.cfg.trapInputSetsFlags = false → t.cond = s.cond) ∧
      (s.cfg.trapInputSetsFlags = true → FlagTable (c.zeroExtend 16) t.cond) ∧
      KeepsRegsExcept [.r0, .r7] s t ∧ t.pc = s.pc ∧ KeepsCellsExcept [] s t ∧ t.arrivals = s.arrivals ∧ KeepsRun s t

/-- R174: IN writes the prompt, takes the head of the input, echoes it, and puts it zero-extended in R0; R7, COND and the
rest as for GETC. The prompt is the parameter `IN_PROMPT` (decision D9, log entry 5). -/
def Obligations.InResult : Prop :=
  ∀ (s : State) (c : Byte) (rest : List Byte), s.inq = c :: rest →
    ∃ t, exec .inChar s = .next t ∧ t.x .r0 = c.zeroExtend 16 ∧ t.x .r7 = s.pc ∧ t.inq = rest ∧
      t.out = s.out ++ s.cfg.inPrompt ++ [c] ∧
      (s.cfg.trapInputSetsFlags = false → t.cond = s.cond) ∧
      (s.cfg.trapInputSetsFlags = true → FlagTable (c.zeroExtend 16) t.cond) ∧
      KeepsRegsExcept [.r0, .r7] s t ∧ t.pc = s.pc ∧ KeepsCellsExcept [] s t ∧ t.arrivals = s.arrivals ∧ KeepsRun s t

/-- R171, R174, R182, R207: GETC and IN, and TRAP with their vectors, wait while there is no input: the state is the one
before the fetch increment, with no prompt written (log entry 17). -/
def Obligations.InputRoutinesWait : Prop :=
  ∀ (i : Instr) (s : State), i.readsChar → s.inq = [] → exec i s = .next (s.setPc (s.pc - 1))

/-- R172: OUT, and TRAP with its vector 0x21, appends exactly one byte, the low byte of R0, whatever its value; R7 is
pc_inc; nothing else changes. -/
def Obligations.OutResult : Prop :=
  ∀ (i : Instr) (s : State), i = .out ∨ i = .trap 0x21 →
    ∃ t b, exec i s = .next t ∧ t.out = s.out ++ [b] ∧ b.toNat = (s.x .r0).toNat % 256 ∧ t.x .r7 = s.pc ∧
      KeepsRegsExcept [.r7] s t ∧ t.cond = s.cond ∧ t.pc = s.pc ∧ KeepsCellsExcept [] s t ∧
      t.inq = s.inq ∧ t.arrivals = s.arrivals ∧ KeepsRun s t

/-- R173: PUTS over a string of non-zero Words in plain cells, ended by a zero Word, appends the low byte of each in
order (a low byte 0x00 too) and writes R7; R0 and all else are unchanged, and the core goes on RUNNING. -/
def Obligations.PutsWritesString : Prop :=
  ∀ (s : State) (ws : List Word), (∀ w ∈ ws, w ≠ 0) → s.holds (s.x .r0) (ws ++ [0]) →
    ∃ t, exec .puts s = .next t ∧ WritesOutputOnly (ws.map fun w => w.extractLsb' 0 8) s t

/-- R175: PUTSP over a well-formed packed string (non-zero characters, two in a Word, low byte first, then a zero Word)
appends its characters, under BOTH settings of `PUTSP_STOP` (decision D10, conflict C4, log entry 6). -/
def Obligations.PutspWritesPackedString : Prop :=
  ∀ (s : State) (cs : List Byte), (∀ c ∈ cs, c ≠ 0) → s.holds (s.x .r0) (packChars cs ++ [0]) →
    ∃ t, exec .putsp s = .next t ∧ WritesOutputOnly cs s t

/-- R175 on ANY string in plain cells, malformed ones too (V83 to V86), for each setting of `PUTSP_STOP` (decision D10,
conflict C4, log entry 6). zero_byte: Words with no zero byte write both bytes, low first, and the loop goes on; at the
first Word with a zero byte it exits, having written the low byte if that one is not zero, whatever follows in memory.
zero_word: every Word but 0x0000 goes on, writing its low byte (a zero one too) and then its high byte unless that is
zero; the Word 0x0000 exits and writes nothing. -/
def Obligations.PutspOnAnyString : Prop :=
  ∀ (s : State) (ws : List Word),
    (∀ w : Word, s.cfg.putspStop = .zeroByte →
      (∀ v ∈ ws, v.extractLsb' 0 8 ≠ 0 ∧ v.extractLsb' 8 8 ≠ 0) → (w.extractLsb' 0 8 = 0 ∨ w.extractLsb' 8 8 = 0) →
      s.holds (s.x .r0) (ws ++ [w]) →
      ∃ t, exec .putsp s = .next t ∧
        WritesOutputOnly ((ws.flatMap fun v => [v.extractLsb' 0 8, v.extractLsb' 8 8]) ++
          if w.extractLsb' 0 8 = 0 then [] else [w.extractLsb' 0 8]) s t) ∧
    (s.cfg.putspStop = .zeroWord → (∀ v ∈ ws, v ≠ 0) → s.holds (s.x .r0) (ws ++ [0]) →
      ∃ t, exec .putsp s = .next t ∧
        WritesOutputOnly (ws.flatMap fun v =>
          if v.extractLsb' 8 8 = 0 then [v.extractLsb' 0 8] else [v.extractLsb' 0 8, v.extractLsb' 8 8]) s t)

/-- R173, R175, R182, R208: PUTS and PUTSP are the loops of their rules, with no bound: where the loop exits they complete
in the state it exits in, where it comes to a read that waits they wait, and one of the two always happens (log
entries 12, 17 and 20). Strings over the keyboard registers are covered, with the choices of their reads (decisions D5
and D13, log entries 11 and 14). What one Word writes and whether the loop goes on is the machine's own `putsBytes` and
`putspBytes` on both sides here: PutsWritesString, PutspWritesPackedString and PutspOnAnyString fix those. -/
def Obligations.StringRoutinesAreTheLoops : Prop :=
  ∀ s : State, s.cfg.wf →
    ((∀ u, StringEnds putsBytes (s.x .r0) (s.setX .r7 s.pc) u → exec .puts s = .next u) ∧
     (StringWaits putsBytes (s.x .r0) (s.setX .r7 s.pc) → exec .puts s = .next (s.setPc (s.pc - 1))) ∧
     ((∃ u, StringEnds putsBytes (s.x .r0) (s.setX .r7 s.pc) u) ∨
       StringWaits putsBytes (s.x .r0) (s.setX .r7 s.pc))) ∧
    ((∀ u, StringEnds (putspBytes s.cfg.putspStop) (s.x .r0) (s.setX .r7 s.pc) u → exec .putsp s = .next u) ∧
     (StringWaits (putspBytes s.cfg.putspStop) (s.x .r0) (s.setX .r7 s.pc) →
       exec .putsp s = .next (s.setPc (s.pc - 1))) ∧
     ((∃ u, StringEnds (putspBytes s.cfg.putspStop) (s.x .r0) (s.setX .r7 s.pc) u) ∨
       StringWaits (putspBytes s.cfg.putspStop) (s.x .r0) (s.setX .r7 s.pc)))

/-- R176: HALT writes R7, stops the loop with `halt_reason = Halt` (outcome success), and changes nothing else; it prints
nothing (decision D18, log entry 21). -/
def Obligations.HaltResult : Prop :=
  ∀ s : State, ∃ t, exec .halt s = .next t ∧ t.run = .halted .halt ∧ t.outcome = some .success ∧ t.x .r7 = s.pc ∧
    KeepsRegsExcept [.r7] s t ∧ t.cond = s.cond ∧ t.pc = s.pc ∧ KeepsCellsExcept [] s t ∧ KeepsStreams s t ∧
    t.cfg = s.cfg

/-- R177, R222: TRAP with a vector outside 0x20 to 0x25 writes R7, then halts with `InvalidTrapVector(v)` (outcome
failure); pc stays pc_inc and nothing else changes. That the condition is fatal and leaves just this state is decision
D17, a choice (log entry 22). -/
def Obligations.InvalidVectorHalts : Prop :=
  ∀ (s : State) (v : BitVec 8), v.toNat < 0x20 ∨ 0x25 < v.toNat →
    ∃ t, exec (.trap v) s = .next t ∧ t.run = .halted (.invalidTrapVector v) ∧
      t.outcome = some (.failure (.invalidTrapVector v)) ∧ t.x .r7 = s.pc ∧
      KeepsRegsExcept [.r7] s t ∧ t.cond = s.cond ∧ t.pc = s.pc ∧ KeepsCellsExcept [] s t ∧ KeepsStreams s t ∧
      t.cfg = s.cfg

/-- R178, R179, R221: every Word ir of opcode 1000 (RTI) or 1101 (RES) halts with `InvalidOpcode(ir)`, all sixteen bits
recorded; R0 to R7, COND, memory and the streams are unchanged and pc stays the address after the Word (conflict C3,
decision D17). -/
def Obligations.InvalidOpcodeHalts : Prop :=
  (∀ (s : State) (ir : Word), ir.extractLsb' 12 4 = 0b1000 ∨ ir.extractLsb' 12 4 = 0b1101 →
    exec (decode ir) s = .next { s with run := .halted (.invalidOpcode ir) }) ∧
  (∀ (s : State) (low : BitVec 12), exec (.rti low) s = .next { s with run := .halted (.invalidOpcode (0b1000#4 ++ low)) } ∧
    exec (.res low) s = .next { s with run := .halted (.invalidOpcode (0b1101#4 ++ low)) })

/-! ## Reset and the host -/

/-- R36, R250, R251: the state after reset. PC, COND and run are the source's. R0 to R7 and the unloaded cells hold
`RESET_GPR` and `RESET_MEM_FILL`, by default zero: the spec's decision D15 (log entries 2 and 9). -/
def Obligations.ResetValues : Prop :=
  (∀ c : Config, (State.resetWith c).pc = 0x3000 ∧ (State.resetWith c).cond = .zro ∧
    (State.resetWith c).run = .running ∧ (State.resetWith c).outcome = none ∧ (State.resetWith c).out = [] ∧
    (State.resetWith c).cfg = c ∧ (∀ r, (State.resetWith c).x r = c.resetGpr) ∧
    (∀ a, (State.resetWith c).cell a = c.resetMemFill)) ∧
  State.reset = State.resetWith Config.default ∧ (∀ r, State.reset.x r = 0) ∧ ∀ a, State.reset.cell a = 0

/-- R254, R257 (decision D16, log entry 24): `Load(base, ws)` writes ws[i] at base + i and nothing else, if it fits below
65536; else it is refused. -/
def Obligations.LoadPlacesImage : Prop :=
  ∀ (s : State) (img : Image),
    (img.base.toNat + img.words.length ≤ 65536 →
      ∃ t, s.load img = .ok t ∧
        (∀ i, ∀ h : i < img.words.length, t.cell (img.base + BitVec.ofNat 16 i) = img.words[i]) ∧
        (∀ a : Word, img.words.length ≤ (a - img.base).toNat → t.cell a = s.cell a) ∧
        KeepsRegsExcept [] s t ∧ t.cond = s.cond ∧ t.pc = s.pc ∧ KeepsStreams s t ∧ KeepsRun s t) ∧
    (65536 < img.base.toNat + img.words.length → s.load img = .error .imagePastEnd)

/-- R250, R252, R253, R255, R256 (decision D16, log entry 24): a boot without an image never releases the core; a boot of one
image or more that all fit succeeds; a boot that succeeds leaves the reset state whatever the machine did before, with
the images loaded in the host's order, the last one winning, entry at 0x3000 wherever they lie, and the invariant. That
the images before the last load on their own too rests on a refused image stopping the boot, the model's choice (log
entry 24); that the input stream stays is DEDUCED (log entry 27), and the schedule of arriving bytes is the model's own
field (log entry 18). -/
def Obligations.BootLoadsInOrder : Prop :=
  ∀ (s : State), s.boot [] = .error .imageLoadFailure ∧
    (∀ imgs : List Image, imgs ≠ [] → (∀ img ∈ imgs, img.base.toNat + img.words.length ≤ 65536) →
      ∃ t, s.boot imgs = .ok t) ∧
    ∀ (imgs : List Image) (img : Image) (t : State), s.boot (imgs ++ [img]) = .ok t →
      t.pc = 0x3000 ∧ t.cond = .zro ∧ t.run = .running ∧ t.out = [] ∧ t.inq = s.inq ∧ t.arrivals = s.arrivals ∧ t.cfg = s.cfg ∧
      (∀ r, t.x r = s.cfg.resetGpr) ∧
      (∀ i, ∀ h : i < img.words.length, t.cell (img.base + BitVec.ofNat 16 i) = img.words[i]) ∧
      (∀ a : Word, img.words.length ≤ (a - img.base).toNat →
        (imgs = [] → t.cell a = s.cfg.resetMemFill) ∧
        (imgs ≠ [] → ∃ u, s.boot imgs = .ok u ∧ t.cell a = u.cell a)) ∧
      (s.cfg.wf → t.Inv)

/-- R223, R256, R257: what the host reports when an image is refused for passing 0xFFFF. All of it is the model's choice (log
entry 24): a refused image stops the boot; a refused first image is "no image loaded", ImageLoadFailure; a refused
later one is reported under a name of the model's own. -/
def Obligations.RefusedImageStopsBoot : Prop :=
  ∀ (s : State) (img : Image), 65536 < img.base.toNat + img.words.length →
    (∀ imgs, s.boot (img :: imgs) = .error .imageLoadFailure) ∧
    ∀ imgs t, s.boot imgs = .ok t → ∀ rest, s.boot (imgs ++ img :: rest) = .error .imagePastEnd
end

