-- ==== Sys2Proof/Laws/Decode.lean ====
section
/-! SUPPORT. Small lemmas of the register selectors and of the trap vectors, for proofs about the decoder. -/

namespace Sys2Proof

@[simp] theorem Reg.ofBits_toBits (r : Reg) : Reg.ofBits r.toBits = r := by cases r <;> rfl

@[simp] theorem Reg.toBits_ofBits (b : BitVec 3) : (Reg.ofBits b).toBits = b := by
  revert b; decide

/-- R79: the dispatcher's table answers `trap` for a vector outside the six and for no other. -/
theorem decodeTrap_of_not_mem {v : BitVec 8} (h : v ∉ routineVectors) : decodeTrap v = .trap v := by
  simp only [routineVectors, List.mem_cons, List.not_mem_nil, or_false, not_or] at h
  obtain ⟨h0, h1, h2, h3, h4, h5⟩ := h
  rw [decodeTrap, if_neg h0, if_neg h1, if_neg h2, if_neg h3, if_neg h4, if_neg h5]

theorem decodeTrap_wellFormed (v : BitVec 8) : (decodeTrap v).wellFormed = true := by
  by_cases h : v ∈ routineVectors
  · simp only [routineVectors, List.mem_cons, List.not_mem_nil, or_false] at h
    rcases h with rfl | rfl | rfl | rfl | rfl | rfl <;> rfl
  · simp [decodeTrap_of_not_mem h, Instr.wellFormed, h]

theorem tableWord_toNat (w : Word) : tableWord 16 w.toNat = some w := by
  have := w.isLt
  simp [tableWord, this]

theorem decodeTableWord_toNat (w : Word) : decodeTableWord 16 w.toNat = some (decode w) := by
  simp [decodeTableWord, tableWord_toNat]

/-! The sixteen opcodes. -/

/-- R72, R82: the opcodes are sixteen different values, so they are all the values of four bits. -/
theorem opcodes_exhaustive :
    [Encoding.opBr, Encoding.opAdd, Encoding.opLd, Encoding.opSt, Encoding.opJsr, Encoding.opAnd, Encoding.opLdr,
      Encoding.opStr, Encoding.opRti, Encoding.opNot, Encoding.opLdi, Encoding.opSti, Encoding.opJmp, Encoding.opRes,
      Encoding.opLea, Encoding.opTrap].Nodup := by decide

/-! The masks and patterns of the rows, and the bits of a placed field. -/

/-- R82, spec/opcode_table.json: the masks and patterns of the base rows, as the table writes them. -/
theorem baseRows_eq :
    baseRows =
      [⟨"BR", 0x0000, 0xF000⟩, ⟨"ADD", 0x1000, 0xF020⟩, ⟨"ADD", 0x1020, 0xF020⟩, ⟨"LD", 0x2000, 0xF000⟩,
       ⟨"ST", 0x3000, 0xF000⟩, ⟨"JSR", 0x4800, 0xF800⟩, ⟨"JSRR", 0x4000, 0xF800⟩, ⟨"AND", 0x5000, 0xF020⟩,
       ⟨"AND", 0x5020, 0xF020⟩, ⟨"LDR", 0x6000, 0xF000⟩, ⟨"STR", 0x7000, 0xF000⟩, ⟨"RTI", 0x8000, 0xF000⟩,
       ⟨"NOT", 0x9000, 0xF000⟩, ⟨"LDI", 0xA000, 0xF000⟩, ⟨"STI", 0xB000, 0xF000⟩, ⟨"JMP", 0xC000, 0xF000⟩,
       ⟨"RES", 0xD000, 0xF000⟩, ⟨"LEA", 0xE000, 0xF000⟩, ⟨"TRAP", 0xF000, 0xF000⟩] := by decide

/-- spec/opcode_table.json: the masks and patterns of the rows that refine TRAP. -/
theorem trapRows_eq :
    trapRows =
      [⟨"GETC", 0xF020, 0xF0FF⟩, ⟨"OUT", 0xF021, 0xF0FF⟩, ⟨"PUTS", 0xF022, 0xF0FF⟩, ⟨"IN", 0xF023, 0xF0FF⟩,
       ⟨"PUTSP", 0xF024, 0xF0FF⟩, ⟨"HALT", 0xF025, 0xF0FF⟩] := by decide

theorem place_getLsbD {n : Nat} (lo : Nat) (v : BitVec n) (i : Nat) :
    (place lo v).getLsbD i = (decide (i < 16) && decide (lo ≤ i) && v.getLsbD (i - lo)) := by
  simp only [place, BitVec.getLsbD_shiftLeft, BitVec.truncate_eq_setWidth, BitVec.getLsbD_setWidth]
  grind

/-- R73: the bits NOT leaves unused are ir[5:0]. -/
theorem usedBits_not (d a : Reg) : (Instr.not d a).usedBits = 0xFFC0 := rfl


/-! The bits of an encoded Word, format by format (R73): which field, and which bit of it, each bit position holds. -/

theorem encodeFormatA_getLsbD (op : BitVec 4) (d a b : Reg) (i : Nat) :
    (encodeFormatA op d a b).getLsbD i =
      if i < 3 then b.toBits.getLsbD i else
      if i < 5 then (0b00#2).getLsbD (i - 3) else
      if i < 6 then (0b0#1).getLsbD (i - 5) else
      if i < 9 then a.toBits.getLsbD (i - 6) else
      if i < 12 then d.toBits.getLsbD (i - 9) else
      op.getLsbD (i - 12) := by
  by_cases h : i < 16
  · simp only [encodeFormatA, place_getLsbD, BitVec.getLsbD_or]
    interval_cases i <;> simp
  · rw [BitVec.getLsbD_of_ge _ _ (by omega)]
    simp [show ∀ k ≤ 12, ¬ i < k by omega, BitVec.getLsbD_of_ge _ (i - 12) (by omega : 4 ≤ i - 12)]

theorem encodeFormatB_getLsbD (op : BitVec 4) (d a : Reg) (imm : BitVec 5) (i : Nat) :
    (encodeFormatB op d a imm).getLsbD i =
      if i < 5 then imm.getLsbD i else
      if i < 6 then (0b1#1).getLsbD (i - 5) else
      if i < 9 then a.toBits.getLsbD (i - 6) else
      if i < 12 then d.toBits.getLsbD (i - 9) else
      op.getLsbD (i - 12) := by
  by_cases h : i < 16
  · simp only [encodeFormatB, place_getLsbD, BitVec.getLsbD_or]
    interval_cases i <;> simp
  · rw [BitVec.getLsbD_of_ge _ _ (by omega)]
    simp [show ∀ k ≤ 12, ¬ i < k by omega, BitVec.getLsbD_of_ge _ (i - 12) (by omega : 4 ≤ i - 12)]

theorem encodeFormatC_getLsbD (op : BitVec 4) (d a : Reg) (i : Nat) :
    (encodeFormatC op d a).getLsbD i =
      if i < 6 then (0b111111#6).getLsbD i else
      if i < 9 then a.toBits.getLsbD (i - 6) else
      if i < 12 then d.toBits.getLsbD (i - 9) else
      op.getLsbD (i - 12) := by
  by_cases h : i < 16
  · simp only [encodeFormatC, place_getLsbD, BitVec.getLsbD_or, usedBits_not]
    interval_cases i <;> simp
  · rw [BitVec.getLsbD_of_ge _ _ (by omega)]
    simp [show ∀ k ≤ 12, ¬ i < k by omega, BitVec.getLsbD_of_ge _ (i - 12) (by omega : 4 ≤ i - 12)]

theorem encodeFormatD_getLsbD (op : BitVec 4) (n z p : Bool) (off : BitVec 9) (i : Nat) :
    (encodeFormatD op n z p off).getLsbD i =
      if i < 9 then off.getLsbD i else
      if i < 10 then (BitVec.ofBool p).getLsbD (i - 9) else
      if i < 11 then (BitVec.ofBool z).getLsbD (i - 10) else
      if i < 12 then (BitVec.ofBool n).getLsbD (i - 11) else
      op.getLsbD (i - 12) := by
  by_cases h : i < 16
  · simp only [encodeFormatD, place_getLsbD, BitVec.getLsbD_or]
    interval_cases i <;> simp
  · rw [BitVec.getLsbD_of_ge _ _ (by omega)]
    simp [show ∀ k ≤ 12, ¬ i < k by omega, BitVec.getLsbD_of_ge _ (i - 12) (by omega : 4 ≤ i - 12)]

theorem encodeFormatE_getLsbD (op : BitVec 4) (r : Reg) (off : BitVec 9) (i : Nat) :
    (encodeFormatE op r off).getLsbD i =
      if i < 9 then off.getLsbD i else
      if i < 12 then r.toBits.getLsbD (i - 9) else
      op.getLsbD (i - 12) := by
  by_cases h : i < 16
  · simp only [encodeFormatE, place_getLsbD, BitVec.getLsbD_or]
    interval_cases i <;> simp
  · rw [BitVec.getLsbD_of_ge _ _ (by omega)]
    simp [show ∀ k ≤ 12, ¬ i < k by omega, BitVec.getLsbD_of_ge _ (i - 12) (by omega : 4 ≤ i - 12)]

theorem encodeFormatF_getLsbD (op : BitVec 4) (r b : Reg) (off : BitVec 6) (i : Nat) :
    (encodeFormatF op r b off).getLsbD i =
      if i < 6 then off.getLsbD i else
      if i < 9 then b.toBits.getLsbD (i - 6) else
      if i < 12 then r.toBits.getLsbD (i - 9) else
      op.getLsbD (i - 12) := by
  by_cases h : i < 16
  · simp only [encodeFormatF, place_getLsbD, BitVec.getLsbD_or]
    interval_cases i <;> simp
  · rw [BitVec.getLsbD_of_ge _ _ (by omega)]
    simp [show ∀ k ≤ 12, ¬ i < k by omega, BitVec.getLsbD_of_ge _ (i - 12) (by omega : 4 ≤ i - 12)]

theorem encodeFormatG_getLsbD (op : BitVec 4) (b : Reg) (i : Nat) :
    (encodeFormatG op b).getLsbD i =
      if i < 6 then (0b000000#6).getLsbD i else
      if i < 9 then b.toBits.getLsbD (i - 6) else
      if i < 12 then (0b000#3).getLsbD (i - 9) else
      op.getLsbD (i - 12) := by
  by_cases h : i < 16
  · simp only [encodeFormatG, place_getLsbD, BitVec.getLsbD_or]
    interval_cases i <;> simp
  · rw [BitVec.getLsbD_of_ge _ _ (by omega)]
    simp [show ∀ k ≤ 12, ¬ i < k by omega, BitVec.getLsbD_of_ge _ (i - 12) (by omega : 4 ≤ i - 12)]

theorem encodeFormatH_getLsbD (op : BitVec 4) (off : BitVec 11) (i : Nat) :
    (encodeFormatH op off).getLsbD i =
      if i < 11 then off.getLsbD i else
      if i < 12 then (0b1#1).getLsbD (i - 11) else
      op.getLsbD (i - 12) := by
  by_cases h : i < 16
  · simp only [encodeFormatH, place_getLsbD, BitVec.getLsbD_or]
    interval_cases i <;> simp
  · rw [BitVec.getLsbD_of_ge _ _ (by omega)]
    simp [show ∀ k ≤ 12, ¬ i < k by omega, BitVec.getLsbD_of_ge _ (i - 12) (by omega : 4 ≤ i - 12)]

theorem encodeFormatI_getLsbD (op : BitVec 4) (b : Reg) (i : Nat) :
    (encodeFormatI op b).getLsbD i =
      if i < 6 then (0b000000#6).getLsbD i else
      if i < 9 then b.toBits.getLsbD (i - 6) else
      if i < 11 then (0b00#2).getLsbD (i - 9) else
      if i < 12 then (0b0#1).getLsbD (i - 11) else
      op.getLsbD (i - 12) := by
  by_cases h : i < 16
  · simp only [encodeFormatI, place_getLsbD, BitVec.getLsbD_or]
    interval_cases i <;> simp
  · rw [BitVec.getLsbD_of_ge _ _ (by omega)]
    simp [show ∀ k ≤ 12, ¬ i < k by omega, BitVec.getLsbD_of_ge _ (i - 12) (by omega : 4 ≤ i - 12)]

theorem encodeFormatJ_getLsbD (op : BitVec 4) (v : BitVec 8) (i : Nat) :
    (encodeFormatJ op v).getLsbD i =
      if i < 8 then v.getLsbD i else
      if i < 12 then (0b0000#4).getLsbD (i - 8) else
      op.getLsbD (i - 12) := by
  by_cases h : i < 16
  · simp only [encodeFormatJ, place_getLsbD, BitVec.getLsbD_or]
    interval_cases i <;> simp
  · rw [BitVec.getLsbD_of_ge _ _ (by omega)]
    simp [show ∀ k ≤ 12, ¬ i < k by omega, BitVec.getLsbD_of_ge _ (i - 12) (by omega : 4 ≤ i - 12)]

theorem encodeFormatK_getLsbD (op : BitVec 4) (low : BitVec 12) (i : Nat) :
    (encodeFormatK op low).getLsbD i =
      if i < 12 then low.getLsbD i else
      op.getLsbD (i - 12) := by
  by_cases h : i < 16
  · simp only [encodeFormatK, place_getLsbD, BitVec.getLsbD_or]
    interval_cases i <;> simp
  · rw [BitVec.getLsbD_of_ge _ _ (by omega)]
    simp [show ∀ k ≤ 12, ¬ i < k by omega, BitVec.getLsbD_of_ge _ (i - 12) (by omega : 4 ≤ i - 12)]

/-! The opcode of an encoded Word. -/

@[simp] theorem fieldOpcode_encodeFormatA (op : BitVec 4) (d a b : Reg) : fieldOpcode (encodeFormatA op d a b) = op :=
  BitVec.eq_of_getLsbD_eq fun k hk => by
    simp only [fieldOpcode, BitVec.getLsbD_extractLsb', encodeFormatA_getLsbD]
    interval_cases k <;> simp

@[simp] theorem fieldOpcode_encodeFormatB (op : BitVec 4) (d a : Reg) (imm : BitVec 5) : fieldOpcode (encodeFormatB op d a imm) = op :=
  BitVec.eq_of_getLsbD_eq fun k hk => by
    simp only [fieldOpcode, BitVec.getLsbD_extractLsb', encodeFormatB_getLsbD]
    interval_cases k <;> simp

@[simp] theorem fieldOpcode_encodeFormatC (op : BitVec 4) (d a : Reg) : fieldOpcode (encodeFormatC op d a) = op :=
  BitVec.eq_of_getLsbD_eq fun k hk => by
    simp only [fieldOpcode, BitVec.getLsbD_extractLsb', encodeFormatC_getLsbD]
    interval_cases k <;> simp

@[simp] theorem fieldOpcode_encodeFormatD (op : BitVec 4) (n z p : Bool) (off : BitVec 9) : fieldOpcode (encodeFormatD op n z p off) = op :=
  BitVec.eq_of_getLsbD_eq fun k hk => by
    simp only [fieldOpcode, BitVec.getLsbD_extractLsb', encodeFormatD_getLsbD]
    interval_cases k <;> simp

@[simp] theorem fieldOpcode_encodeFormatE (op : BitVec 4) (r : Reg) (off : BitVec 9) : fieldOpcode (encodeFormatE op r off) = op :=
  BitVec.eq_of_getLsbD_eq fun k hk => by
    simp only [fieldOpcode, BitVec.getLsbD_extractLsb', encodeFormatE_getLsbD]
    interval_cases k <;> simp

@[simp] theorem fieldOpcode_encodeFormatF (op : BitVec 4) (r b : Reg) (off : BitVec 6) : fieldOpcode (encodeFormatF op r b off) = op :=
  BitVec.eq_of_getLsbD_eq fun k hk => by
    simp only [fieldOpcode, BitVec.getLsbD_extractLsb', encodeFormatF_getLsbD]
    interval_cases k <;> simp

@[simp] theorem fieldOpcode_encodeFormatG (op : BitVec 4) (b : Reg) : fieldOpcode (encodeFormatG op b) = op :=
  BitVec.eq_of_getLsbD_eq fun k hk => by
    simp only [fieldOpcode, BitVec.getLsbD_extractLsb', encodeFormatG_getLsbD]
    interval_cases k <;> simp

@[simp] theorem fieldOpcode_encodeFormatH (op : BitVec 4) (off : BitVec 11) : fieldOpcode (encodeFormatH op off) = op :=
  BitVec.eq_of_getLsbD_eq fun k hk => by
    simp only [fieldOpcode, BitVec.getLsbD_extractLsb', encodeFormatH_getLsbD]
    interval_cases k <;> simp

@[simp] theorem fieldOpcode_encodeFormatI (op : BitVec 4) (b : Reg) : fieldOpcode (encodeFormatI op b) = op :=
  BitVec.eq_of_getLsbD_eq fun k hk => by
    simp only [fieldOpcode, BitVec.getLsbD_extractLsb', encodeFormatI_getLsbD]
    interval_cases k <;> simp

@[simp] theorem fieldOpcode_encodeFormatJ (op : BitVec 4) (v : BitVec 8) : fieldOpcode (encodeFormatJ op v) = op :=
  BitVec.eq_of_getLsbD_eq fun k hk => by
    simp only [fieldOpcode, BitVec.getLsbD_extractLsb', encodeFormatJ_getLsbD]
    interval_cases k <;> simp

@[simp] theorem fieldOpcode_encodeFormatK (op : BitVec 4) (low : BitVec 12) : fieldOpcode (encodeFormatK op low) = op :=
  BitVec.eq_of_getLsbD_eq fun k hk => by
    simp only [fieldOpcode, BitVec.getLsbD_extractLsb', encodeFormatK_getLsbD]
    interval_cases k <;> simp

end Sys2Proof
end

