-- ==== Sys2Proof/Laws/State.lean ====
section
/-! SUPPORT. One lemma per field per update of State, true by rfl, and the laws of the register file: what reading
register r gives after writing register d. -/

namespace Sys2Proof.Machine

/-! The register file. -/

/-- R20, R21: a register reads as the last Word written to it, and a write leaves the other seven alone. -/
@[simp] theorem GPRs.get_set (g : GPRs) (d r : Reg) (v : Word) :
    (g.set d v).get r = if r = d then v else g.get r := by
  cases d <;> cases r <;> rfl

/-! `State.setX` changes gpr and nothing else. -/

@[simp] theorem State.setX_cfg (s : State) (r : Reg) (v : Word) : (s.setX r v).cfg = s.cfg := rfl
@[simp] theorem State.setX_gpr (s : State) (r : Reg) (v : Word) : (s.setX r v).gpr = s.gpr.set r v := rfl
@[simp] theorem State.setX_pc (s : State) (r : Reg) (v : Word) : (s.setX r v).pc = s.pc := rfl
@[simp] theorem State.setX_cond (s : State) (r : Reg) (v : Word) : (s.setX r v).cond = s.cond := rfl
@[simp] theorem State.setX_run (s : State) (r : Reg) (v : Word) : (s.setX r v).run = s.run := rfl
@[simp] theorem State.setX_mem (s : State) (r : Reg) (v : Word) : (s.setX r v).mem = s.mem := rfl
@[simp] theorem State.setX_inq (s : State) (r : Reg) (v : Word) : (s.setX r v).inq = s.inq := rfl
@[simp] theorem State.setX_out (s : State) (r : Reg) (v : Word) : (s.setX r v).out = s.out := rfl
@[simp] theorem State.setX_arrivals (s : State) (r : Reg) (v : Word) : (s.setX r v).arrivals = s.arrivals := rfl

/-! `State.setPc` changes pc and nothing else. -/

@[simp] theorem State.setPc_cfg (s : State) (a : Word) : (s.setPc a).cfg = s.cfg := rfl
@[simp] theorem State.setPc_gpr (s : State) (a : Word) : (s.setPc a).gpr = s.gpr := rfl
@[simp] theorem State.setPc_pc (s : State) (a : Word) : (s.setPc a).pc = a := rfl
@[simp] theorem State.setPc_cond (s : State) (a : Word) : (s.setPc a).cond = s.cond := rfl
@[simp] theorem State.setPc_run (s : State) (a : Word) : (s.setPc a).run = s.run := rfl
@[simp] theorem State.setPc_mem (s : State) (a : Word) : (s.setPc a).mem = s.mem := rfl
@[simp] theorem State.setPc_inq (s : State) (a : Word) : (s.setPc a).inq = s.inq := rfl
@[simp] theorem State.setPc_out (s : State) (a : Word) : (s.setPc a).out = s.out := rfl
@[simp] theorem State.setPc_arrivals (s : State) (a : Word) : (s.setPc a).arrivals = s.arrivals := rfl

/-! `State.setcc` changes cond and nothing else. -/

@[simp] theorem State.setcc_cfg (s : State) (r : Reg) : (s.setcc r).cfg = s.cfg := rfl
@[simp] theorem State.setcc_gpr (s : State) (r : Reg) : (s.setcc r).gpr = s.gpr := rfl
@[simp] theorem State.setcc_pc (s : State) (r : Reg) : (s.setcc r).pc = s.pc := rfl
@[simp] theorem State.setcc_cond (s : State) (r : Reg) : (s.setcc r).cond = flagOf (s.x r) := rfl
@[simp] theorem State.setcc_run (s : State) (r : Reg) : (s.setcc r).run = s.run := rfl
@[simp] theorem State.setcc_mem (s : State) (r : Reg) : (s.setcc r).mem = s.mem := rfl
@[simp] theorem State.setcc_inq (s : State) (r : Reg) : (s.setcc r).inq = s.inq := rfl
@[simp] theorem State.setcc_out (s : State) (r : Reg) : (s.setcc r).out = s.out := rfl
@[simp] theorem State.setcc_arrivals (s : State) (r : Reg) : (s.setcc r).arrivals = s.arrivals := rfl

/-! `State.setCell` changes mem and nothing else. -/

@[simp] theorem State.setCell_cfg (s : State) (a v : Word) : (s.setCell a v).cfg = s.cfg := rfl
@[simp] theorem State.setCell_gpr (s : State) (a v : Word) : (s.setCell a v).gpr = s.gpr := rfl
@[simp] theorem State.setCell_pc (s : State) (a v : Word) : (s.setCell a v).pc = s.pc := rfl
@[simp] theorem State.setCell_cond (s : State) (a v : Word) : (s.setCell a v).cond = s.cond := rfl
@[simp] theorem State.setCell_run (s : State) (a v : Word) : (s.setCell a v).run = s.run := rfl
@[simp] theorem State.setCell_mem (s : State) (a v : Word) : (s.setCell a v).mem = s.mem.set s.unlisted a v := rfl
@[simp] theorem State.setCell_inq (s : State) (a v : Word) : (s.setCell a v).inq = s.inq := rfl
@[simp] theorem State.setCell_out (s : State) (a v : Word) : (s.setCell a v).out = s.out := rfl
@[simp] theorem State.setCell_arrivals (s : State) (a v : Word) : (s.setCell a v).arrivals = s.arrivals := rfl

/-! `State.writeOutputChar` changes out and nothing else. -/

@[simp] theorem State.writeOutputChar_cfg (s : State) (b : Byte) : (s.writeOutputChar b).cfg = s.cfg := rfl
@[simp] theorem State.writeOutputChar_gpr (s : State) (b : Byte) : (s.writeOutputChar b).gpr = s.gpr := rfl
@[simp] theorem State.writeOutputChar_pc (s : State) (b : Byte) : (s.writeOutputChar b).pc = s.pc := rfl
@[simp] theorem State.writeOutputChar_cond (s : State) (b : Byte) : (s.writeOutputChar b).cond = s.cond := rfl
@[simp] theorem State.writeOutputChar_run (s : State) (b : Byte) : (s.writeOutputChar b).run = s.run := rfl
@[simp] theorem State.writeOutputChar_mem (s : State) (b : Byte) : (s.writeOutputChar b).mem = s.mem := rfl
@[simp] theorem State.writeOutputChar_inq (s : State) (b : Byte) : (s.writeOutputChar b).inq = s.inq := rfl
@[simp] theorem State.writeOutputChar_out (s : State) (b : Byte) : (s.writeOutputChar b).out = s.out ++ [b] := rfl
@[simp] theorem State.writeOutputChar_arrivals (s : State) (b : Byte) : (s.writeOutputChar b).arrivals = s.arrivals := rfl

/-! `State.haltWith` changes run and nothing else. -/

@[simp] theorem State.haltWith_cfg (s : State) (r : HaltReason) : (s.haltWith r).cfg = s.cfg := rfl
@[simp] theorem State.haltWith_gpr (s : State) (r : HaltReason) : (s.haltWith r).gpr = s.gpr := rfl
@[simp] theorem State.haltWith_pc (s : State) (r : HaltReason) : (s.haltWith r).pc = s.pc := rfl
@[simp] theorem State.haltWith_cond (s : State) (r : HaltReason) : (s.haltWith r).cond = s.cond := rfl
@[simp] theorem State.haltWith_run (s : State) (r : HaltReason) : (s.haltWith r).run = .halted r := rfl
@[simp] theorem State.haltWith_mem (s : State) (r : HaltReason) : (s.haltWith r).mem = s.mem := rfl
@[simp] theorem State.haltWith_inq (s : State) (r : HaltReason) : (s.haltWith r).inq = s.inq := rfl
@[simp] theorem State.haltWith_out (s : State) (r : HaltReason) : (s.haltWith r).out = s.out := rfl
@[simp] theorem State.haltWith_arrivals (s : State) (r : HaltReason) : (s.haltWith r).arrivals = s.arrivals := rfl

/-! `State.deliver` changes inq and nothing else. -/

@[simp] theorem State.deliver_cfg (s : State) (bs : List Byte) : (s.deliver bs).cfg = s.cfg := rfl
@[simp] theorem State.deliver_gpr (s : State) (bs : List Byte) : (s.deliver bs).gpr = s.gpr := rfl
@[simp] theorem State.deliver_pc (s : State) (bs : List Byte) : (s.deliver bs).pc = s.pc := rfl
@[simp] theorem State.deliver_cond (s : State) (bs : List Byte) : (s.deliver bs).cond = s.cond := rfl
@[simp] theorem State.deliver_run (s : State) (bs : List Byte) : (s.deliver bs).run = s.run := rfl
@[simp] theorem State.deliver_mem (s : State) (bs : List Byte) : (s.deliver bs).mem = s.mem := rfl
@[simp] theorem State.deliver_inq (s : State) (bs : List Byte) : (s.deliver bs).inq = s.inq ++ bs := rfl
@[simp] theorem State.deliver_out (s : State) (bs : List Byte) : (s.deliver bs).out = s.out := rfl
@[simp] theorem State.deliver_arrivals (s : State) (bs : List Byte) : (s.deliver bs).arrivals = s.arrivals := rfl

/-! The accessors `x`, `cell`, `unlisted` and `pollInput` through the updates. -/

@[simp] theorem State.cell_setX (s : State) (r : Reg) (v : Word) (p : Word) : (s.setX r v).cell p = s.cell p := rfl
@[simp] theorem State.unlisted_setX (s : State) (r : Reg) (v : Word) : (s.setX r v).unlisted = s.unlisted := rfl
@[simp] theorem State.x_setPc (s : State) (a : Word) (i : Reg) : (s.setPc a).x i = s.x i := rfl
@[simp] theorem State.cell_setPc (s : State) (a : Word) (p : Word) : (s.setPc a).cell p = s.cell p := rfl
@[simp] theorem State.unlisted_setPc (s : State) (a : Word) : (s.setPc a).unlisted = s.unlisted := rfl
@[simp] theorem State.x_setcc (s : State) (r : Reg) (i : Reg) : (s.setcc r).x i = s.x i := rfl
@[simp] theorem State.cell_setcc (s : State) (r : Reg) (p : Word) : (s.setcc r).cell p = s.cell p := rfl
@[simp] theorem State.unlisted_setcc (s : State) (r : Reg) : (s.setcc r).unlisted = s.unlisted := rfl
@[simp] theorem State.x_setCell (s : State) (a v : Word) (i : Reg) : (s.setCell a v).x i = s.x i := rfl
@[simp] theorem State.unlisted_setCell (s : State) (a v : Word) : (s.setCell a v).unlisted = s.unlisted := rfl
@[simp] theorem State.x_writeOutputChar (s : State) (b : Byte) (i : Reg) : (s.writeOutputChar b).x i = s.x i := rfl
@[simp] theorem State.cell_writeOutputChar (s : State) (b : Byte) (p : Word) : (s.writeOutputChar b).cell p = s.cell p := rfl
@[simp] theorem State.unlisted_writeOutputChar (s : State) (b : Byte) : (s.writeOutputChar b).unlisted = s.unlisted := rfl
@[simp] theorem State.x_haltWith (s : State) (r : HaltReason) (i : Reg) : (s.haltWith r).x i = s.x i := rfl
@[simp] theorem State.cell_haltWith (s : State) (r : HaltReason) (p : Word) : (s.haltWith r).cell p = s.cell p := rfl
@[simp] theorem State.unlisted_haltWith (s : State) (r : HaltReason) : (s.haltWith r).unlisted = s.unlisted := rfl
@[simp] theorem State.x_deliver (s : State) (bs : List Byte) (i : Reg) : (s.deliver bs).x i = s.x i := rfl
@[simp] theorem State.cell_deliver (s : State) (bs : List Byte) (p : Word) : (s.deliver bs).cell p = s.cell p := rfl
@[simp] theorem State.unlisted_deliver (s : State) (bs : List Byte) : (s.deliver bs).unlisted = s.unlisted := rfl

@[simp] theorem State.x_setX (s : State) (d i : Reg) (v : Word) :
    (s.setX d v).x i = if i = d then v else s.x i := GPRs.get_set s.gpr d i v

/-! `State.writeResult` is a register write and the flag of the Word written. -/

@[simp] theorem State.writeResult_x (s : State) (d i : Reg) (v : Word) :
    (s.writeResult d v).x i = if i = d then v else s.x i := State.x_setX s d i v

@[simp] theorem State.writeResult_cond (s : State) (d : Reg) (v : Word) :
    (s.writeResult d v).cond = flagOf v := by
  simp [State.writeResult]

@[simp] theorem State.writeResult_cfg (s : State) (d : Reg) (v : Word) : (s.writeResult d v).cfg = s.cfg := rfl
@[simp] theorem State.writeResult_pc (s : State) (d : Reg) (v : Word) : (s.writeResult d v).pc = s.pc := rfl
@[simp] theorem State.writeResult_run (s : State) (d : Reg) (v : Word) : (s.writeResult d v).run = s.run := rfl
@[simp] theorem State.writeResult_mem (s : State) (d : Reg) (v : Word) : (s.writeResult d v).mem = s.mem := rfl
@[simp] theorem State.writeResult_inq (s : State) (d : Reg) (v : Word) : (s.writeResult d v).inq = s.inq := rfl
@[simp] theorem State.writeResult_out (s : State) (d : Reg) (v : Word) : (s.writeResult d v).out = s.out := rfl
@[simp] theorem State.writeResult_arrivals (s : State) (d : Reg) (v : Word) : (s.writeResult d v).arrivals = s.arrivals := rfl
@[simp] theorem State.writeResult_cell (s : State) (d : Reg) (v p : Word) : (s.writeResult d v).cell p = s.cell p := rfl

/-! `State.writeOutputChars` appends its list. -/

theorem State.writeOutputChars_eq (s : State) (bs : List Byte) :
    s.writeOutputChars bs = { s with out := s.out ++ bs } := by
  induction bs generalizing s with
  | nil => simp [State.writeOutputChars]
  | cons b bs ih =>
    exact (ih (s.writeOutputChar b)).trans (by simp [State.writeOutputChar])

/-! Writing back what is there. -/

@[simp] theorem State.setPc_setPc (s : State) (a b : Word) : (s.setPc a).setPc b = s.setPc b := rfl

@[simp] theorem State.setPc_self (s : State) : s.setPc s.pc = s := rfl

end Sys2Proof.Machine
end

