-- ==== Sys2Proof/Laws/Memory.lean ====
section
/-! SUPPORT. The laws of the memory list: read after write, a write leaves every other cell alone, and every operation
keeps the canonical form `Memory.wf`. -/

namespace Sys2Proof.Machine

/-! Reads of the list. -/

@[simp] theorem Memory.lookup_nil (a : Nat) : Memory.lookup [] a = none := rfl

@[simp] theorem Memory.lookup_cons (b : Nat) (w : Word) (m : Memory) (a : Nat) :
    Memory.lookup ((b, w) :: m) a = if a = b then some w else Memory.lookup m a := rfl

theorem Memory.lookup_put (m : Memory) (a b : Nat) (v : Word) :
    (Memory.put m a v).lookup b = if b = a then some v else m.lookup b := by
  induction m with
  | nil => simp [Memory.put]
  | cons p m ih =>
    obtain ⟨c, w⟩ := p
    simp only [Memory.put]
    split
    · simp
    · split
      · next h => subst h; by_cases hb : b = a <;> simp [hb]
      · next h => by_cases hb : b = c <;> by_cases hba : b = a <;> simp_all

theorem Memory.lookup_erase (m : Memory) (a b : Nat) :
    (Memory.erase m a).lookup b = if b = a then none else m.lookup b := by
  induction m with
  | nil => simp [Memory.erase]
  | cons p m ih =>
    obtain ⟨c, w⟩ := p
    simp only [Memory.erase, List.filter_cons] at ih ⊢
    by_cases hc : c = a
    · subst hc
      by_cases hb : b = c <;> simp_all
    · by_cases hb : b = c <;> by_cases hba : b = a <;> simp_all

/-- R55: a read returns the latest Word written to that address, and a write leaves every other cell alone. -/
@[simp] theorem Memory.get_set (fill : Word) (m : Memory) (a b v : Word) :
    (m.set fill a v).get fill b = if b = a then v else m.get fill b := by
  simp only [Memory.get, Memory.set]
  split
  · next h =>
    subst h
    rw [Memory.lookup_erase]
    by_cases hb : b = a <;> simp [hb, BitVec.toNat_inj]
  · rw [Memory.lookup_put]
    by_cases hb : b = a <;> simp [hb, BitVec.toNat_inj]

/-! The canonical form. -/

theorem Memory.wf_nil (fill : Word) : Memory.wf fill [] := by simp [Memory.wf]

theorem Memory.mem_put {m : Memory} {a : Nat} {v : Word} {p : Nat × Word} (h : p ∈ Memory.put m a v) :
    p = (a, v) ∨ p ∈ m := by
  induction m with
  | nil => simpa [Memory.put] using h
  | cons q m ih =>
    obtain ⟨b, w⟩ := q
    simp only [Memory.put] at h
    split at h
    · simpa using h
    · split at h
      · rcases List.mem_cons.1 h with h | h
        · exact .inl h
        · exact .inr (List.mem_cons_of_mem _ h)
      · rcases List.mem_cons.1 h with h | h
        · exact .inr (h ▸ List.mem_cons_self ..)
        · exact (ih h).imp_right (List.mem_cons_of_mem _)

theorem Memory.pairwise_put {m : Memory} (a : Nat) (v : Word) (h : m.Pairwise fun p q => p.1 < q.1) :
    (Memory.put m a v).Pairwise fun p q => p.1 < q.1 := by
  induction m with
  | nil => simp [Memory.put]
  | cons q m ih =>
    obtain ⟨b, w⟩ := q
    obtain ⟨hb, hm⟩ := List.pairwise_cons.1 h
    simp only [Memory.put]
    split
    · next hab =>
      refine List.pairwise_cons.2 ⟨fun p hp => ?_, h⟩
      rcases List.mem_cons.1 hp with rfl | hp
      · exact hab
      · exact hab.trans (hb p hp)
    · split
      · next hab => subst hab; exact List.pairwise_cons.2 ⟨hb, hm⟩
      · next hlt hne =>
        refine List.pairwise_cons.2 ⟨fun p hp => ?_, ih hm⟩
        rcases Memory.mem_put hp with rfl | hp
        · show b < a; omega
        · exact hb p hp

/-- Every write keeps the canonical form. -/
theorem Memory.wf_set {fill : Word} {m : Memory} (a v : Word) (h : m.wf fill) : (m.set fill a v).wf fill := by
  obtain ⟨hs, hm⟩ := h
  simp only [Memory.set]
  split
  · exact ⟨hs.filter _, fun p hp => hm p (List.mem_of_mem_filter hp)⟩
  · next hv =>
    refine ⟨Memory.pairwise_put _ _ hs, fun p hp => ?_⟩
    rcases Memory.mem_put hp with rfl | hp
    · exact ⟨a.isLt, hv⟩
    · exact hm p hp

/-! Cells of the state. -/

/-- R48, R55: the cell written holds the Word, and every other cell keeps its own. -/
@[simp] theorem State.cell_setCell (s : State) (a v b : Word) :
    (s.setCell a v).cell b = if b = a then v else s.cell b :=
  Memory.get_set s.unlisted s.mem a b v

@[simp] theorem State.memWrite_eq_setCell (s : State) (a v : Word) : s.memWrite a v = s.setCell a v := rfl

theorem State.cell_reset (c : Config) (a : Word) : (State.resetWith c).cell a = c.resetMemFill := rfl

end Sys2Proof.Machine
end

