-- ==== Sys2Proof/Laws/Ops.lean ====
section
/-! SUPPORT. What each shared operation can do, said once: `readInputChar`, `memRead`, `fetch`, `inputRoutine`, `arrive`.
Later proofs cite these and do not unfold the operations. -/

namespace Sys2Proof.Machine

@[simp] theorem State.arrive_of_nil {s : State} (h : s.arrivals = []) : s.arrive = s := by
  simp [State.arrive, h]

/-- R35: what the environment does before a step: it appends bytes to the input, and nothing else. -/
theorem State.arrive_cases (s : State) :
    (s.arrivals = [] ∧ s.arrive = s) ∨
      ∃ bs rest, s.arrivals = bs :: rest ∧ s.arrive = { s with inq := s.inq ++ bs, arrivals := rest } := by
  cases h : s.arrivals with
  | nil => exact .inl ⟨rfl, State.arrive_of_nil h⟩
  | cons bs rest => exact .inr ⟨bs, rest, rfl, by simp [State.arrive, h, State.deliver]⟩

@[simp] theorem State.arrive_cfg (s : State) : s.arrive.cfg = s.cfg := by
  obtain ⟨-, h⟩ | ⟨_, _, -, h⟩ := s.arrive_cases <;> simp [h]
@[simp] theorem State.arrive_gpr (s : State) : s.arrive.gpr = s.gpr := by
  obtain ⟨-, h⟩ | ⟨_, _, -, h⟩ := s.arrive_cases <;> simp [h]
@[simp] theorem State.arrive_pc (s : State) : s.arrive.pc = s.pc := by
  obtain ⟨-, h⟩ | ⟨_, _, -, h⟩ := s.arrive_cases <;> simp [h]
@[simp] theorem State.arrive_setPc (s : State) : s.arrive.setPc s.pc = s.arrive := by
  rw [← s.arrive_pc]; exact State.setPc_self _
@[simp] theorem State.arrive_cond (s : State) : s.arrive.cond = s.cond := by
  obtain ⟨-, h⟩ | ⟨_, _, -, h⟩ := s.arrive_cases <;> simp [h]
@[simp] theorem State.arrive_run (s : State) : s.arrive.run = s.run := by
  obtain ⟨-, h⟩ | ⟨_, _, -, h⟩ := s.arrive_cases <;> simp [h]
@[simp] theorem State.arrive_mem (s : State) : s.arrive.mem = s.mem := by
  obtain ⟨-, h⟩ | ⟨_, _, -, h⟩ := s.arrive_cases <;> simp [h]
@[simp] theorem State.arrive_out (s : State) : s.arrive.out = s.out := by
  obtain ⟨-, h⟩ | ⟨_, _, -, h⟩ := s.arrive_cases <;> simp [h]
@[simp] theorem State.arrive_x (s : State) (r : Reg) : s.arrive.x r = s.x r := by simp [State.x]
@[simp] theorem State.arrive_unlisted (s : State) : s.arrive.unlisted = s.unlisted := by simp [State.unlisted]
@[simp] theorem State.arrive_cell (s : State) (a : Word) : s.arrive.cell a = s.cell a := by simp [State.cell]

@[simp] theorem State.readInputChar_nil {s : State} {echo : Bool} (h : s.inq = []) : s.readInputChar echo = none := by
  simp [State.readInputChar, h]

theorem State.readInputChar_cons {s : State} {c : Byte} {rest : List Byte} (echo : Bool) (h : s.inq = c :: rest) :
    s.readInputChar echo =
      some (c, { s with inq := rest, out := if echo then s.out ++ [c] else s.out }) := by
  cases echo <;> simp [State.readInputChar, h, State.writeOutputChar]

/-- R181: what `ReadInputChar` can do. -/
theorem State.readInputChar_cases (s : State) (echo : Bool) :
    (s.inq = [] ∧ s.readInputChar echo = none) ∨
      ∃ c rest, s.inq = c :: rest ∧
        s.readInputChar echo = some (c, { s with inq := rest, out := if echo then s.out ++ [c] else s.out }) := by
  cases h : s.inq with
  | nil => exact .inl ⟨rfl, State.readInputChar_nil h⟩
  | cons c rest => exact .inr ⟨c, rest, rfl, State.readInputChar_cons echo h⟩

/-! `MemRead` (R44): one lemma for each way through it, and one that says they are all. -/

theorem State.memRead_status {s : State} {a : Word} (h : a = s.cfg.kbsrAddr) :
    s.memRead a = some (if s.inq = [] then 0x0000 else 0x8000, s) := by
  cases hq : s.inq <;> simp [State.memRead, h, State.pollInput, hq]

theorem State.memRead_data_nil {s : State} {a : Word} (hs : a ≠ s.cfg.kbsrAddr) (h : a = s.cfg.kbdrAddr)
    (hq : s.inq = []) : s.memRead a = none := by
  simp [State.memRead, h ▸ hs, h, hq]

theorem State.memRead_data_cons {s : State} {a : Word} {c : Byte} {rest : List Byte} (hs : a ≠ s.cfg.kbsrAddr)
    (h : a = s.cfg.kbdrAddr) (hq : s.inq = c :: rest) :
    s.memRead a = some (zext8 c, { s.setCell s.cfg.kbdrAddr (zext8 c) with inq := rest }) := by
  subst h
  simp [State.memRead, hs, State.readInputChar, hq, State.setCell, State.unlisted]

theorem State.memRead_plain {s : State} {a : Word} (hs : a ≠ s.cfg.kbsrAddr) (h : a ≠ s.cfg.kbdrAddr) :
    s.memRead a = some (s.cell a, s) := by
  simp [State.memRead, hs, h]

/-- Everything `MemRead` can do (R44 to R47). -/
theorem State.memRead_cases (s : State) (a : Word) :
    (a = s.cfg.kbsrAddr ∧ s.memRead a = some (if s.inq = [] then 0x0000 else 0x8000, s)) ∨
    (a ≠ s.cfg.kbsrAddr ∧ a = s.cfg.kbdrAddr ∧ s.inq = [] ∧ s.memRead a = none) ∨
    (a ≠ s.cfg.kbsrAddr ∧ a = s.cfg.kbdrAddr ∧ ∃ c rest, s.inq = c :: rest ∧
      s.memRead a = some (zext8 c, { s.setCell s.cfg.kbdrAddr (zext8 c) with inq := rest })) ∨
    (a ≠ s.cfg.kbsrAddr ∧ a ≠ s.cfg.kbdrAddr ∧ s.memRead a = some (s.cell a, s)) := by
  by_cases hs : a = s.cfg.kbsrAddr
  · exact .inl ⟨hs, s.memRead_status hs⟩
  · by_cases hd : a = s.cfg.kbdrAddr
    · cases hq : s.inq with
      | nil => exact .inr (.inl ⟨hs, hd, rfl, s.memRead_data_nil hs hd hq⟩)
      | cons c rest => exact .inr (.inr (.inl ⟨hs, hd, c, rest, rfl, s.memRead_data_cons hs hd hq⟩))
    · exact .inr (.inr (.inr ⟨hs, hd, s.memRead_plain hs hd⟩))

/-- What a completed `MemRead` leaves: the registers, pc, COND, run state, parameters, output and schedule are
untouched; the input loses a (possibly empty) front part; only the hidden data cell can change (R46, R52). -/
theorem State.memRead_frame {s t : State} {a w : Word} (h : s.memRead a = some (w, t)) :
    t.gpr = s.gpr ∧ t.pc = s.pc ∧ t.cond = s.cond ∧ t.run = s.run ∧ t.cfg = s.cfg ∧ t.out = s.out ∧
      t.arrivals = s.arrivals ∧ (∃ used, s.inq = used ++ t.inq) ∧
      (∀ b, b ≠ s.cfg.kbdrAddr → t.cell b = s.cell b) := by
  obtain ⟨-, e⟩ | ⟨-, -, -, e⟩ | ⟨-, -, c, rest, hq, e⟩ | ⟨-, -, e⟩ := s.memRead_cases a
  · obtain ⟨-, rfl⟩ : _ ∧ s = t := by simpa [e] using h
    exact ⟨rfl, rfl, rfl, rfl, rfl, rfl, rfl, ⟨[], rfl⟩, fun _ _ => rfl⟩
  · simp [e] at h
  · obtain ⟨-, rfl⟩ : _ ∧ _ = t := by simpa [e] using h
    refine ⟨rfl, rfl, rfl, rfl, rfl, rfl, rfl, ⟨[c], by simp [hq]⟩, fun b hb => ?_⟩
    exact (State.cell_setCell s _ _ b).trans (if_neg hb)
  · obtain ⟨-, rfl⟩ : _ ∧ s = t := by simpa [e] using h
    exact ⟨rfl, rfl, rfl, rfl, rfl, rfl, rfl, ⟨[], rfl⟩, fun _ _ => rfl⟩

/-- A read keeps the memory's canonical form. -/
theorem State.memRead_wf {s t : State} {a w : Word} (h : s.memRead a = some (w, t)) (hw : s.mem.wf s.unlisted) :
    t.mem.wf t.unlisted := by
  obtain ⟨-, e⟩ | ⟨-, -, -, e⟩ | ⟨-, -, c, rest, hq, e⟩ | ⟨-, -, e⟩ := s.memRead_cases a
  · obtain ⟨-, rfl⟩ : _ ∧ s = t := by simpa [e] using h
    exact hw
  · simp [e] at h
  · obtain ⟨-, rfl⟩ : _ ∧ _ = t := by simpa [e] using h
    exact Memory.wf_set _ _ hw
  · obtain ⟨-, rfl⟩ : _ ∧ s = t := by simpa [e] using h
    exact hw

/-- A write keeps the memory's canonical form. -/
theorem State.setCell_wf {s : State} (a v : Word) (hw : s.mem.wf s.unlisted) :
    (s.setCell a v).mem.wf (s.setCell a v).unlisted := Memory.wf_set a v hw

/-- R202: what a fetch can do. -/
theorem State.fetch_eq (s : State) :
    s.fetch = (s.memRead s.pc).map fun p => (p.1, p.2.setPc (s.pc + 1)) := by
  simp only [State.fetch]
  cases h : s.memRead s.pc with
  | none => rfl
  | some p => obtain ⟨ir, t⟩ := p; simp [(State.memRead_frame h).2.1]

/-- A completed fetch is a completed `MemRead` at pc, with pc incremented. -/
theorem State.fetch_some {s u : State} {ir : Word} (h : s.fetch = some (ir, u)) :
    ∃ t, s.memRead s.pc = some (ir, t) ∧ u = t.setPc (s.pc + 1) := by
  rw [State.fetch_eq] at h
  cases hm : s.memRead s.pc with
  | none => simp [hm] at h
  | some p =>
    obtain ⟨w, t⟩ := p
    simp only [hm, Option.map_some, Option.some.injEq, Prod.mk.injEq] at h
    exact ⟨t, by rw [h.1], h.2.symm⟩

theorem State.fetch_plain {s : State} (hs : s.pc ≠ s.cfg.kbsrAddr) (hd : s.pc ≠ s.cfg.kbdrAddr) :
    s.fetch = some (s.cell s.pc, s.setPc (s.pc + 1)) := by
  simp [State.fetch_eq, State.memRead_plain hs hd]

/-- R182: a wait after the fetch increment is the state before the increment. -/
theorem State.await_setPc (s : State) : (s.setPc (s.pc + 1)).await = .next s := by
  simp [State.await]

/-! The routines GETC and IN share (R171, R174). -/

theorem inputRoutine_waits {s : State} {echo : Bool} (h : s.inq = []) : inputRoutine s echo = .waits := by
  simp [inputRoutine, h]

theorem inputRoutine_done {s : State} {c : Byte} {rest : List Byte} (echo : Bool) (h : s.inq = c :: rest) :
    inputRoutine s echo =
      .done (State.inputToR0 { s with inq := rest, out := if echo then s.out ++ [c] else s.out } c) := by
  simp [inputRoutine, State.readInputChar_cons echo h]

/-- R171: R0 and, under `TRAP_INPUT_SETS_FLAGS`, COND. -/
theorem State.inputToR0_eq (s : State) (c : Byte) :
    s.inputToR0 c =
      { s.setX .r0 (zext8 c) with cond := if s.cfg.trapInputSetsFlags then flagOf (zext8 c) else s.cond } := by
  cases h : s.cfg.trapInputSetsFlags <;> simp [State.inputToR0, h, State.setcc]
  rfl

end Sys2Proof.Machine
end

