-- ==== Sys2Proof/Laws/Strings.lean ====
section
/-! SUPPORT. The string loop of PUTS and PUTSP (R173, R175): how it unfolds, what it leaves unchanged, and that it ends
or waits within its fuel when the two keyboard addresses are distinct (log entry 20). -/

namespace Sys2Proof.Machine

variable {bytes : Word → List Byte × Bool}

/-! One turn of the loop. -/

theorem stringLoop_waits {fuel : Nat} {a : Word} {s : State} (h : s.memRead a = none) :
    stringLoop bytes (fuel + 1) a s = .waits := by
  simp [stringLoop, h]

theorem stringLoop_stop {fuel : Nat} {a w : Word} {s t : State} (h : s.memRead a = some (w, t))
    (hw : (bytes w).2 = false) :
    stringLoop bytes (fuel + 1) a s = .done { t with out := t.out ++ (bytes w).1 } := by
  simp [stringLoop, h, hw, State.writeOutputChars_eq]

theorem stringLoop_more {fuel : Nat} {a w : Word} {s t : State} (h : s.memRead a = some (w, t))
    (hw : (bytes w).2 = true) :
    stringLoop bytes (fuel + 1) a s = stringLoop bytes fuel (a + 1) { t with out := t.out ++ (bytes w).1 } := by
  simp [stringLoop, h, hw, State.writeOutputChars_eq]

/-! The reads that are left. -/

theorem distance_step {k a : Word} (h : a ≠ k) : (k - a).toNat = (k - (a + 1)).toNat + 1 := by
  have := BitVec.toNat_ne.1 h
  bv_omega

theorem distance_wrap (k : Word) : (k - (k + 1)).toNat = 65535 := by
  bv_omega

/-- Away from `KBDR_ADDR` one read brings the address one nearer to it; at `KBDR_ADDR` it takes one input byte. -/
theorem memRead_fuel {s t : State} {a w : Word} (hc : s.cfg.wf) (h : s.memRead a = some (w, t)) :
    s.stringFuel a = t.stringFuel (a + 1) + 1 := by
  obtain ⟨hs, e⟩ | ⟨-, -, -, e⟩ | ⟨-, hd, c, rest, hq, e⟩ | ⟨-, hd, e⟩ := s.memRead_cases a
  · obtain ⟨-, rfl⟩ : _ ∧ s = t := by simpa [e] using h
    have := distance_step (hs ▸ hc : a ≠ s.cfg.kbdrAddr)
    simp only [State.stringFuel]; omega
  · simp [e] at h
  · obtain ⟨-, rfl⟩ : _ ∧ _ = t := by simpa [e] using h
    subst hd
    have := distance_wrap s.cfg.kbdrAddr
    simp only [State.stringFuel, hq, List.length_cons, BitVec.sub_self, Config.memWords, this]
    simp
    omega
  · obtain ⟨-, rfl⟩ : _ ∧ s = t := by simpa [e] using h
    have := distance_step hd
    simp only [State.stringFuel]; omega

/-- With its fuel the loop always ends or waits: it never runs out. -/
theorem stringLoop_ends {s : State} {a : Word} {n : Nat} (hc : s.cfg.wf) (hn : s.stringFuel a ≤ n) :
    stringLoop bytes n a s ≠ .neverEnds := by
  induction n generalizing a s with
  | zero => simp [State.stringFuel] at hn
  | succ n ih =>
    cases h : s.memRead a with
    | none => simp [stringLoop_waits h]
    | some p =>
      obtain ⟨w, t⟩ := p
      have hf := memRead_fuel hc h
      have hcfg := (State.memRead_frame h).2.2.2.2.1
      cases hw : (bytes w).2 with
      | false => simp [stringLoop_stop h hw]
      | true =>
        rw [stringLoop_more h hw]
        refine ih (s := { t with out := t.out ++ (bytes w).1 }) ?_ ?_
        · show t.cfg.wf; rw [hcfg]; exact hc
        · show t.stringFuel (a + 1) ≤ n; omega

/-! What the loop leaves. -/

/-- What a string routine that ends leaves: the registers, pc, COND, run state, parameters and schedule are untouched;
the output grows at its end, the input loses a front part, and only the hidden data cell can change (R173, R180). -/
theorem stringLoop_frame {s u : State} {a : Word} {n : Nat} (h : stringLoop bytes n a s = .done u) :
    u.gpr = s.gpr ∧ u.pc = s.pc ∧ u.cond = s.cond ∧ u.run = s.run ∧ u.cfg = s.cfg ∧ u.arrivals = s.arrivals ∧
      (∃ written, u.out = s.out ++ written) ∧ (∃ used, s.inq = used ++ u.inq) ∧
      (∀ b, b ≠ s.cfg.kbdrAddr → u.cell b = s.cell b) ∧ (s.mem.wf s.unlisted → u.mem.wf u.unlisted) := by
  induction n generalizing a s with
  | zero => simp [stringLoop] at h
  | succ n ih =>
    cases hr : s.memRead a with
    | none => simp [stringLoop_waits hr] at h
    | some p =>
      obtain ⟨w, t⟩ := p
      obtain ⟨hg, hp, hcd, hrn, hcf, ho, har, ⟨used, hi⟩, hce⟩ := State.memRead_frame hr
      have hwf := State.memRead_wf hr
      cases hw : (bytes w).2 with
      | false =>
        rw [stringLoop_stop hr hw] at h
        injection h with h
        subst h
        exact ⟨hg, hp, hcd, hrn, hcf, har, ⟨(bytes w).1, by simp [ho]⟩, ⟨used, hi⟩, hce, hwf⟩
      | true =>
        rw [stringLoop_more hr hw] at h
        obtain ⟨hg', hp', hcd', hrn', hcf', har', ⟨wr, ho'⟩, ⟨used', hi'⟩, hce', hwf'⟩ := ih h
        refine ⟨hg'.trans hg, hp'.trans hp, hcd'.trans hcd, hrn'.trans hrn, hcf'.trans hcf, har'.trans har,
          ⟨(bytes w).1 ++ wr, by simp [ho', ho]⟩, ⟨used ++ used', ?_⟩, fun b hb => ?_, fun hm => hwf' (hwf hm)⟩
        · simp only at hi'; rw [hi, hi', List.append_assoc]
        · exact (hce' b (by simpa [hcf] using hb)).trans (hce b hb)

end Sys2Proof.Machine
end

