-- ==== Sys2Proof/Laws/Step.lean ====
section
/-! SUPPORT. What `step` can do, said once, the ways an instruction ends, and that `withFetchWord` places an instruction
where the next step fetches and runs it. -/

namespace Sys2Proof.Machine

/-! `step` (R201, R206, R207). -/

theorem step_halted {s : State} {r : HaltReason} (h : s.run = .halted r) : step s = .next s := by
  simp [step, h]

theorem step_of_fetch {s t : State} {ir : Word} (h : s.run = .running) (hf : s.arrive.fetch = some (ir, t)) :
    step s = exec (decode ir) t := by
  simp [step, h, hf]

theorem step_of_no_fetch {s : State} (h : s.run = .running) (hf : s.arrive.fetch = none) :
    step s = .next s.arrive := by
  simp [step, h, hf]

/-- Everything `step` can do. -/
theorem step_cases (s : State) :
    (∃ r, s.run = .halted r ∧ step s = .next s) ∨
    (s.run = .running ∧ s.arrive.fetch = none ∧ step s = .next s.arrive) ∨
    (s.run = .running ∧ ∃ ir t, s.arrive.fetch = some (ir, t) ∧ step s = exec (decode ir) t) := by
  cases h : s.run with
  | halted r => exact .inl ⟨r, rfl, step_halted h⟩
  | running =>
    cases hf : s.arrive.fetch with
    | none => exact .inr (.inl ⟨rfl, rfl, step_of_no_fetch h hf⟩)
    | some p => exact .inr (.inr ⟨rfl, p.1, p.2, rfl, step_of_fetch h hf⟩)

/-- A state a step does not change is the result of any number of steps. -/
theorem run_of_step_self {s : State} (h : step s = .next s) (k : Nat) :
    Host.Core.run Sys2Proof.core k s = Host.Outcome.next s := by
  induction k with
  | zero => rfl
  | succ k ih =>
    have hs : Sys2Proof.core.step s = Host.Outcome.next s := h
    simp only [Host.Core.run]
    rw [hs]
    exact ih

/-! The ways an instruction ends. -/

@[simp] theorem State.afterRead_none (s : State) (k : Word → State → Host.Outcome State Fault Refusal) :
    s.afterRead none k = .next (s.setPc (s.pc - 1)) := rfl

@[simp] theorem State.afterRead_some (s t : State) (w : Word) (k : Word → State → Host.Outcome State Fault Refusal) :
    s.afterRead (some (w, t)) k = k w t := rfl

@[simp] theorem State.finish_done (s t : State) : s.finish (.done t) = .next t := rfl

@[simp] theorem State.finish_waits (s : State) : s.finish .waits = .next (s.setPc (s.pc - 1)) := rfl

@[simp] theorem State.finish_neverEnds (s : State) : s.finish .neverEnds = .fault .stringNeverEnds := rfl

/-! `withFetchWord`. -/

/-- Of three addresses one at least is no keyboard register. -/
theorem State.fetchSlot_plain (s : State) : s.fetchSlot ≠ s.cfg.kbsrAddr ∧ s.fetchSlot ≠ s.cfg.kbdrAddr := by
  unfold State.fetchSlot
  split
  · assumption
  · split
    · assumption
    · split
      · assumption
      · next h0 h1 =>
        constructor <;> rintro h2 <;> rw [← h2] at h0 h1 <;> grind

/-- The step after `withFetchWord` fetches exactly the Word placed and executes the instruction it decodes to. -/
theorem step_withFetchWord (s : State) (w : Word) :
    step (s.withFetchWord 16 w.toNat) =
      exec (decode w) ((s.withFetchWord 16 w.toNat).arrive.setPc (s.fetchSlot + 1)) := by
  obtain ⟨hs, hd⟩ := s.fetchSlot_plain
  have hpc : (s.withFetchWord 16 w.toNat).pc = s.fetchSlot := rfl
  have hcell : (s.withFetchWord 16 w.toNat).cell s.fetchSlot = w := by
    have : (s.withFetchWord 16 w.toNat).cell s.fetchSlot = (s.setCell s.fetchSlot w).cell s.fetchSlot := by
      simp only [State.withFetchWord, tableWord_toNat]; rfl
    simp [this]
  have hf := State.fetch_plain (s := (s.withFetchWord 16 w.toNat).arrive)
    (by simp only [State.arrive_pc, State.arrive_cfg, hpc]; exact hs)
    (by simp only [State.arrive_pc, State.arrive_cfg, hpc]; exact hd)
  rw [step_of_fetch rfl hf]
  simp [hpc, hcell]

end Sys2Proof.Machine
end

