-- ==== Sys2Proof/Laws/Exec.lean ====
section
/-! SUPPORT. What `exec` can do, said once for all instructions: it waits, or it completes in the state its rule gives.
Proofs about every instruction cite `exec_cases` and `trapRoutine_cases` and do not unfold the meanings. -/

namespace Sys2Proof.Machine

/-- The state `t` in which a trap routine that ends leaves `s`, by vector (R171 to R177). -/
def RoutineCompletes (v : BitVec 8) (s t : State) : Prop :=
  (v = 0x20 ∧ ∃ c rest, s.inq = c :: rest ∧ t = State.inputToR0 { s with inq := rest } c) ∨
  (v = 0x21 ∧ t = s.writeOutputChar ((s.x .r0).extractLsb' 0 8)) ∨
  (v = 0x22 ∧ stringLoop putsBytes (s.stringFuel (s.x .r0)) (s.x .r0) s = .done t) ∨
  (v = 0x23 ∧ ∃ c rest, s.inq = c :: rest ∧
    t = State.inputToR0 { s with inq := rest, out := s.out ++ s.cfg.inPrompt ++ [c] } c) ∨
  (v = 0x24 ∧ stringLoop (putspBytes s.cfg.putspStop) (s.stringFuel (s.x .r0)) (s.x .r0) s = .done t) ∨
  (v = 0x25 ∧ t = s.haltWith .halt) ∨
  (v ∉ routineVectors ∧ t = s.haltWith (.invalidTrapVector v))

/-- The state `t` in which an instruction that completes leaves `s`. -/
def Completes (i : Instr) (s t : State) : Prop :=
  match i with
  | .br n z p off => t = if branchTaken n z p s.cond then s.setPc (s.pcRel9 off) else s
  | .addReg d a b => t = s.writeResult d (s.x a + s.x b)
  | .addImm d a imm => t = s.writeResult d (s.x a + immOperand imm)
  | .ld d off => ∃ w u, s.memRead (s.pcRel9 off) = some (w, u) ∧ t = u.writeResult d w
  | .st r off => t = s.setCell (s.pcRel9 off) (s.x r)
  | .jsr off => t = (s.setX .r7 s.pc).setPc (s.pcRel11 off)
  | .jsrr b => t = (s.setX .r7 s.pc).setPc ((s.setX .r7 s.pc).x b)
  | .andReg d a b => t = s.writeResult d (s.x a &&& s.x b)
  | .andImm d a imm => t = s.writeResult d (s.x a &&& immOperand imm)
  | .ldr d b off => ∃ w u, s.memRead (s.baseOffset b off) = some (w, u) ∧ t = u.writeResult d w
  | .str r b off => t = s.setCell (s.baseOffset b off) (s.x r)
  | .rti low => t = s.haltWith (.invalidOpcode (0b1000#4 ++ low))
  | .not d a => t = s.writeResult d (~~~ s.x a)
  | .ldi d off => ∃ ea u w v, s.memRead (s.pcRel9 off) = some (ea, u) ∧ u.memRead ea = some (w, v) ∧
      t = v.writeResult d w
  | .sti r off => ∃ ea u, s.memRead (s.pcRel9 off) = some (ea, u) ∧ t = u.setCell ea (u.x r)
  | .jmp b => t = s.setPc (s.x b)
  | .res low => t = s.haltWith (.invalidOpcode (0b1101#4 ++ low))
  | .lea d off => t = s.writeResult d (s.pcRel9 off)
  | .trap v => RoutineCompletes v s.enterTrap t
  | .getc => RoutineCompletes 0x20 s.enterTrap t
  | .out => RoutineCompletes 0x21 s.enterTrap t
  | .puts => RoutineCompletes 0x22 s.enterTrap t
  | .inChar => RoutineCompletes 0x23 s.enterTrap t
  | .putsp => RoutineCompletes 0x24 s.enterTrap t
  | .halt => RoutineCompletes 0x25 s.enterTrap t

/-! The six rows that refine TRAP are TRAP with their vector. -/

theorem exec_getc (s : State) : exec .getc s = exec (.trap 0x20) s := rfl
theorem exec_out (s : State) : exec .out s = exec (.trap 0x21) s := rfl
theorem exec_puts (s : State) : exec .puts s = exec (.trap 0x22) s := rfl
theorem exec_inChar (s : State) : exec .inChar s = exec (.trap 0x23) s := rfl
theorem exec_putsp (s : State) : exec .putsp s = exec (.trap 0x24) s := rfl
theorem exec_halt (s : State) : exec .halt s = exec (.trap 0x25) s := rfl

/-! Inversion. -/

theorem inputRoutine_inv {s t : State} {echo : Bool} (h : inputRoutine s echo = .done t) :
    ∃ c rest, s.inq = c :: rest ∧
      t = State.inputToR0 { s with inq := rest, out := if echo then s.out ++ [c] else s.out } c := by
  cases hq : s.inq with
  | nil => simp [inputRoutine_waits hq] at h
  | cons c rest =>
    rw [inputRoutine_done echo hq] at h
    exact ⟨c, rest, rfl, (Routine.done.inj h).symm⟩

/-- Everything a trap routine that ends can have done. -/
theorem trapRoutine_cases {v : BitVec 8} {s t : State} (h : trapRoutine s v = .done t) : RoutineCompletes v s t := by
  unfold trapRoutine at h
  split at h
  · next hv => obtain ⟨c, rest, hq, ht⟩ := inputRoutine_inv h; exact .inl ⟨hv, c, rest, hq, ht⟩
  split at h
  · next hv => exact .inr (.inl ⟨hv, (Routine.done.inj h).symm⟩)
  split at h
  · next hv => exact .inr (.inr (.inl ⟨hv, h⟩))
  split at h
  · next hv =>
    obtain ⟨c, rest, hq, ht⟩ := inputRoutine_inv h
    rw [State.writeOutputChars_eq] at hq ht
    exact .inr (.inr (.inr (.inl ⟨hv, c, rest, hq, ht⟩)))
  split at h
  · next hv => exact .inr (.inr (.inr (.inr (.inl ⟨hv, h⟩))))
  split at h
  · next hv => exact .inr (.inr (.inr (.inr (.inr (.inl ⟨hv, (Routine.done.inj h).symm⟩)))))
  · next h0 h1 h2 h3 h4 h5 =>
    refine .inr (.inr (.inr (.inr (.inr (.inr ⟨?_, (Routine.done.inj h).symm⟩)))))
    simp only [routineVectors, List.mem_cons, List.not_mem_nil, or_false, not_or]
    exact ⟨h0, h1, h2, h3, h4, h5⟩

theorem afterRead_inv {s t : State} {r : Option (Word × State)}
    {k : Word → State → Host.Outcome State Fault Refusal} (h : s.afterRead r k = .next t) :
    (r = none ∧ t = s.setPc (s.pc - 1)) ∨ ∃ w u, r = some (w, u) ∧ k w u = .next t := by
  cases r with
  | none => exact .inl ⟨rfl, (Host.Outcome.next.inj h).symm⟩
  | some p => exact .inr ⟨p.1, p.2, rfl, h⟩

/-! What an instruction that waits lacks. -/

/-- R46: the one read that waits. -/
theorem State.inputMissing_of_memRead {s : State} {a : Word} (h : s.memRead a = none) :
    s.inputMissing a := by
  obtain ⟨-, e⟩ | ⟨-, hd, hq, -⟩ | ⟨-, -, c, rest, -, e⟩ | ⟨-, -, e⟩ := s.memRead_cases a
  · simp [e] at h
  · exact ⟨hd, hq⟩
  · simp [e] at h
  · simp [e] at h

/-- R44: a read that completes answers what the case list says. -/
theorem State.memRead_answers {s t : State} {a w : Word} (h : s.memRead a = some (w, t)) : ReadAnswers s a w t := by
  obtain ⟨h1, e⟩ | ⟨-, -, -, e⟩ | ⟨h1, h2, c, rest, hq, e⟩ | ⟨h1, h2, e⟩ := s.memRead_cases a <;> rw [e] at h <;> cases h
  · exact .inl ⟨h1, rfl, rfl⟩
  · refine .inr (.inl ⟨h1, h2, ⟨c, hq, rfl⟩, ?_, ?_, fun _ _ => rfl, rfl, rfl, rfl, rfl, ⟨rfl, rfl⟩⟩)
    · subst h2; exact (State.cell_setCell s _ _ _).trans (if_pos rfl)
    · intro b hb; simp at hb; subst h2; exact (State.cell_setCell s _ _ _).trans (if_neg hb)
  · exact .inr (.inr ⟨h1, h2, rfl, rfl⟩)

theorem inputRoutine_waits_inv {s : State} {echo : Bool} (h : inputRoutine s echo = .waits) : s.inq = [] := by
  cases hq : s.inq with
  | nil => rfl
  | cons c rest => simp [inputRoutine_done echo hq] at h

/-- A string loop that waits has come to a read that waits. -/
theorem stringWaits_of_stringLoop {bytes : Word → List Byte × Bool} {n : Nat} {a : Word} {s : State}
    (h : stringLoop bytes n a s = .waits) : StringWaits bytes a s := by
  induction n generalizing a s with
  | zero => simp [stringLoop] at h
  | succ n ih =>
    cases hr : s.memRead a with
    | none => exact .here hr
    | some p =>
      obtain ⟨w, t⟩ := p
      cases hw : (bytes w).2 with
      | false => simp [stringLoop_stop hr hw] at h
      | true => rw [stringLoop_more hr hw] at h; exact .later hr hw (ih h)

/-- Everything a routine that waits can lack. -/
theorem trapRoutine_waits {v : BitVec 8} {s : State} (h : trapRoutine s.enterTrap v = .waits) :
    s.lacksInput (.trap v) := by
  unfold trapRoutine at h
  split at h
  · next hv => exact .inl ⟨.inl hv, inputRoutine_waits_inv (s := s.enterTrap) (echo := false) h⟩
  split at h
  · cases h
  split at h
  · next hv => exact .inr (.inl ⟨hv, stringWaits_of_stringLoop (s := s.enterTrap) h⟩)
  split at h
  · next hv =>
    have := inputRoutine_waits_inv (s := s.enterTrap.writeOutputChars _) (echo := true) h
    rw [State.writeOutputChars_eq] at this
    exact .inl ⟨.inr hv, this⟩
  split at h
  · next hv => exact .inr (.inr ⟨hv, stringWaits_of_stringLoop (s := s.enterTrap) h⟩)
  split at h <;> cases h

theorem execTrap_inv {v : BitVec 8} {s t : State} (h : exec (.trap v) s = .next t) :
    (t = s.setPc (s.pc - 1) ∧ s.lacksInput (.trap v)) ∨ RoutineCompletes v s.enterTrap t := by
  have h : s.finish (trapRoutine s.enterTrap v) = .next t := h
  cases hr : trapRoutine s.enterTrap v with
  | done u => rw [hr] at h; cases h; exact .inr (trapRoutine_cases hr)
  | waits => rw [hr] at h; exact .inl ⟨(Host.Outcome.next.inj h).symm, trapRoutine_waits hr⟩
  | neverEnds => rw [hr] at h; cases h

/-- Everything `exec` can do when it answers a next state: the instruction waits for input, or it completes. -/
theorem exec_cases {i : Instr} {s t : State} (h : exec i s = .next t) :
    (t = s.setPc (s.pc - 1) ∧ s.lacksInput i) ∨ Completes i s t := by
  cases i with
  | trap v => exact execTrap_inv h
  | getc => exact (execTrap_inv (exec_getc s ▸ h)).imp_left fun ⟨ht, hl⟩ => ⟨ht, by simpa [State.lacksInput] using hl⟩
  | out => exact (execTrap_inv (exec_out s ▸ h)).imp_left fun ⟨ht, hl⟩ => ⟨ht, by simp [State.lacksInput] at hl⟩
  | puts => exact (execTrap_inv (exec_puts s ▸ h)).imp_left fun ⟨ht, hl⟩ => ⟨ht, by simpa [State.lacksInput] using hl⟩
  | inChar => exact (execTrap_inv (exec_inChar s ▸ h)).imp_left fun ⟨ht, hl⟩ => ⟨ht, by simpa [State.lacksInput] using hl⟩
  | putsp => exact (execTrap_inv (exec_putsp s ▸ h)).imp_left fun ⟨ht, hl⟩ => ⟨ht, by simpa [State.lacksInput] using hl⟩
  | halt => exact (execTrap_inv (exec_halt s ▸ h)).imp_left fun ⟨ht, hl⟩ => ⟨ht, by simp [State.lacksInput] at hl⟩
  | ld d off =>
    obtain ⟨hr, ht⟩ | ⟨w, u, hr, hk⟩ := afterRead_inv h
    · exact .inl ⟨ht, State.inputMissing_of_memRead hr⟩
    · exact .inr ⟨w, u, hr, (Host.Outcome.next.inj hk).symm⟩
  | ldr d b off =>
    obtain ⟨hr, ht⟩ | ⟨w, u, hr, hk⟩ := afterRead_inv h
    · exact .inl ⟨ht, State.inputMissing_of_memRead hr⟩
    · exact .inr ⟨w, u, hr, (Host.Outcome.next.inj hk).symm⟩
  | sti r off =>
    obtain ⟨hr, ht⟩ | ⟨ea, u, hr, hk⟩ := afterRead_inv h
    · exact .inl ⟨ht, State.inputMissing_of_memRead hr⟩
    · exact .inr ⟨ea, u, hr, (Host.Outcome.next.inj hk).symm⟩
  | ldi d off =>
    obtain ⟨hr, ht⟩ | ⟨ea, u, hr, hk⟩ := afterRead_inv h
    · exact .inl ⟨ht, .inl (State.inputMissing_of_memRead hr)⟩
    · obtain ⟨hr2, ht⟩ | ⟨w, v, hr2, hk2⟩ := afterRead_inv hk
      · exact .inl ⟨ht, .inr ⟨ea, u, State.memRead_answers hr, State.inputMissing_of_memRead hr2⟩⟩
      · exact .inr ⟨ea, u, w, v, hr, hr2, (Host.Outcome.next.inj hk2).symm⟩
  | br | addReg | addImm | st | jsr | jsrr | andReg | andImm | str | rti | not | jmp | res | lea =>
    exact .inr (Host.Outcome.next.inj h).symm

end Sys2Proof.Machine
end

