-- ==== Sys2Proof/Laws/Effects.lean ====
section
/-! SUPPORT. What the shared operations do, in the terms of Safety.lean: the flag of a result, a result write, a store, a
read, a trap routine that ends, and an instruction other than TRAP that completes. -/

namespace Sys2Proof.Machine

/-- R107: `flagOf` is the spec's table. -/
theorem flagTable_flagOf (v : Word) : FlagTable v (flagOf v) := by
  have hm : v.getLsbD 15 = decide (32768 ≤ v.toNat) := by
    rw [Bool.eq_iff_iff, BitVec.getLsbD, Nat.testBit]
    have := v.isLt
    simp [Nat.shiftRight_eq_div_pow]
    omega
  unfold flagOf
  refine ⟨?_, ?_, ?_⟩
  · intro h; rw [if_pos (BitVec.eq_of_toNat_eq (by simpa using h))]
  · rintro ⟨h1, h2⟩
    rw [if_neg (by rintro rfl; simp at h1), hm]; simp; omega
  · intro h
    rw [if_neg (by rintro rfl; simp at h), hm]; simp [h]

/-- R100 to R104, R143: the pair "x[dst] <- v; setcc(dst)" does that and nothing else. -/
theorem State.writeResult_only (d : Reg) (v : Word) (s : State) : WritesResultOnly d v s (s.writeResult d v) := by
  refine ⟨by simp, by simp; exact flagTable_flagOf _, ?_, rfl, fun _ _ => rfl, ⟨rfl, rfl, rfl⟩, ⟨rfl, rfl⟩⟩
  intro r hr; simp at hr; simp [hr]

/-- R144 to R146: a store changes its cell and nothing else. -/
theorem State.setCell_only (a v : Word) (s : State) : StoresOnly a v s (s.setCell a v) := by
  refine ⟨by simp, ?_, fun _ _ => rfl, rfl, rfl, ⟨rfl, rfl, rfl⟩, ⟨rfl, rfl⟩⟩
  intro b hb; simp at hb; simp [hb]

/-- R46: the only read that does not complete is that of the data address with no input. -/
theorem State.memRead_completes {s : State} {a : Word} (h : ¬ s.inputMissing a) : ∃ w t, s.memRead a = some (w, t) := by
  obtain ⟨h1, e⟩ | ⟨h0, h1, h2, e⟩ | ⟨h1, h2, c, rest, hq, e⟩ | ⟨h1, h2, e⟩ := s.memRead_cases a
  · exact ⟨_, _, e⟩
  · exact absurd ⟨h1, h2⟩ h
  · exact ⟨_, _, e⟩
  · exact ⟨_, _, e⟩

theorem State.memRead_waits {s : State} {a : Word} (hc : s.cfg.wf) (h : s.inputMissing a) : s.memRead a = none :=
  State.memRead_data_nil (by rw [h.1]; exact hc.symm) h.1 h.2

/-- What the case list answers is what the read answers, up to a state with the same input and parameters. -/
theorem memRead_of_answers {s t : State} {a w : Word} (h : ReadAnswers s a w t) : ∃ t', s.memRead a = some (w, t') ∧ t'.inq = t.inq ∧ t'.cfg = t.cfg := by
  obtain ⟨h1, rfl, rfl⟩ | ⟨h0, h1, ⟨c, hq, rfl⟩, -,-,-,-,-,-,-, hr⟩ | ⟨h1, h2, rfl, rfl⟩ := h
  · exact ⟨_, State.memRead_status h1, rfl, rfl⟩
  · exact ⟨_, State.memRead_data_cons h0 h1 hq, rfl, hr.2.symm⟩
  · exact ⟨_, State.memRead_plain h1 h2, rfl, rfl⟩

/-! A trap routine that ends, and the other instructions that complete, effect by effect. -/

/-- What a trap routine that ends leaves, by vector. -/
theorem routine_frame {v : BitVec 8} {s t : State} (h : RoutineCompletes v s t) :
    t.cfg = s.cfg ∧ t.arrivals = s.arrivals ∧ t.pc = s.pc ∧ (∃ used, s.inq = used ++ t.inq) ∧ (∃ wr, t.out = s.out ++ wr) ∧
    (∀ b, b ≠ s.cfg.kbdrAddr → t.cell b = s.cell b) ∧
    (∀ r, (r = .r0 → v ≠ 0x20 ∧ v ≠ 0x23) → t.x r = s.x r) ∧
    (t.run = s.run ∨ (v = 0x25 ∧ t.run = .halted .halt) ∨ (v ∉ routineVectors ∧ t.run = .halted (.invalidTrapVector v))) ∧
    (v ∉ [0x21, 0x22, 0x23, 0x24] → t.out = s.out) ∧
    (v = 0x25 → t.run = .halted .halt) ∧ (v ∉ routineVectors → t.run = .halted (.invalidTrapVector v)) ∧
    (v ∈ routineVectors → v ≠ 0x25 → t.run = s.run) ∧
    ((v = 0x20 ∨ v = 0x23) → s.cfg.trapInputSetsFlags = true → FlagTable (t.x .r0) t.cond) ∧
    (¬ ((v = 0x20 ∨ v = 0x23) ∧ s.cfg.trapInputSetsFlags = true) → t.cond = s.cond) := by
  obtain ⟨rfl, c, rest, hq, rfl⟩ | ⟨rfl, rfl⟩ | ⟨rfl, h⟩ | ⟨rfl, c, rest, hq, rfl⟩ | ⟨rfl, h⟩ | ⟨rfl, rfl⟩ | ⟨hv, rfl⟩ := h
  · rw [State.inputToR0_eq]
    refine ⟨rfl, rfl, rfl, ⟨[c], by simp [hq]⟩, ⟨[], by simp⟩, fun _ _ => rfl, ?_, .inl rfl, by simp, by simp, by simp [routineVectors], fun _ _ => rfl, ?_, ?_⟩
    · intro r hr; have : r ≠ .r0 := fun h => (hr h).1 rfl
      exact (State.x_setX _ _ _ _).trans (if_neg this)
    · intro _ hf; 
      have : (State.setX { s with inq := rest } .r0 (zext8 c)).x .r0 = zext8 c := by simp
      simp only [State.setX_cfg, hf, if_true]
      exact (this ▸ flagTable_flagOf _)
    · simp; intro h; simp [h]
  · refine ⟨rfl, rfl, rfl, ⟨[], rfl⟩, ⟨_, rfl⟩, fun _ _ => rfl, fun _ _ => rfl, .inl rfl, by simp, by simp, by simp [routineVectors], fun _ _ => rfl, by simp, by simp⟩
  · obtain ⟨a,b,c,d,e,f,g,h1,h2,h3⟩ := stringLoop_frame h
    exact ⟨e, f, b, h1, g, h2, fun r _ => by simp [State.x, a], .inl d, by simp, by simp, by simp [routineVectors], fun _ _ => d, by simp, fun _ => c⟩
  · rw [State.inputToR0_eq]
    refine ⟨rfl, rfl, rfl, ⟨[c], by simp [hq]⟩, ⟨s.cfg.inPrompt ++ [c], by simp⟩, fun _ _ => rfl, ?_, .inl rfl, by simp, by simp, by simp [routineVectors], fun _ _ => rfl, ?_, ?_⟩
    · intro r hr; have : r ≠ .r0 := fun h => (hr h).2 rfl
      exact (State.x_setX _ _ _ _).trans (if_neg this)
    · intro _ hf; 
      simp only [State.setX_cfg, hf, if_true]
      have : (State.setX { s with inq := rest, out := s.out ++ s.cfg.inPrompt ++ [c] } .r0 (zext8 c)).x .r0 = zext8 c := by simp
      exact (this ▸ flagTable_flagOf _)
    · simp; intro h; simp [h]
  · obtain ⟨a,b,c,d,e,f,g,h1,h2,h3⟩ := stringLoop_frame h
    exact ⟨e, f, b, h1, g, h2, fun r _ => by simp [State.x, a], .inl d, by simp, by simp, by simp [routineVectors], fun _ _ => d, by simp, fun _ => c⟩
  · exact ⟨rfl, rfl, rfl, ⟨[], rfl⟩, ⟨[], by simp⟩, fun _ _ => rfl, fun _ _ => rfl, .inr (.inl ⟨rfl, rfl⟩), by simp, by simp, by simp [routineVectors], by simp, by simp, by simp⟩
  · refine ⟨rfl, rfl, rfl, ⟨[], rfl⟩, ⟨[], by simp⟩, fun _ _ => rfl, fun _ _ => rfl, .inr (.inr ⟨hv, rfl⟩), by simp, ?_, fun _ => rfl, fun h => absurd h hv, ?_, fun _ => rfl⟩
    · rintro rfl; exact absurd (by simp [routineVectors]) hv
    · rintro (rfl|rfl) <;> exact absurd (by simp [routineVectors]) hv

/-- The vector a TRAP runs: none for an instruction that is no TRAP. -/
def trapVector : Instr → Option (BitVec 8)
  | .trap v => some v
  | .getc => some 0x20
  | .out => some 0x21
  | .puts => some 0x22
  | .inChar => some 0x23
  | .putsp => some 0x24
  | .halt => some 0x25
  | _ => none

/-- A TRAP that completes is its routine that ends, R7 written. -/
theorem completes_trap {i : Instr} {s t : State} {v : BitVec 8} (hv : trapVector i = some v) (h : Completes i s t) : RoutineCompletes v s.enterTrap t := by
  cases i <;> simp [trapVector] at hv <;> subst hv <;> exact h

/-- What an instruction other than TRAP that completes leaves. -/
theorem plain_frame {i : Instr} {s t : State} (hv : trapVector i = none) (h : Completes i s t) :
    t.cfg = s.cfg ∧ t.arrivals = s.arrivals ∧ (∃ used, s.inq = used ++ t.inq) ∧ t.out = s.out ∧
    (∀ r, r ∉ i.regsWritten → t.x r = s.x r) ∧
    ((∀ l, i ≠ .rti l) → (∀ l, i ≠ .res l) → t.run = s.run) ∧
    (∀ l, i = .rti l → t.run = .halted (.invalidOpcode (0b1000#4 ++ l))) ∧ (∀ l, i = .res l → t.run = .halted (.invalidOpcode (0b1101#4 ++ l))) ∧
    (∀ d, i.flagReg = some d → FlagTable (t.x d) t.cond) ∧ (i.flagReg = none → t.cond = s.cond) ∧
    ((∀ r o, i ≠ .st r o) → (∀ r o, i ≠ .sti r o) → (∀ r b o, i ≠ .str r b o) → ∀ b, b ≠ s.cfg.kbdrAddr → t.cell b = s.cell b) ∧
    ((∀ n z p off, i ≠ .br n z p off) → (∀ b, i ≠ .jmp b) → (∀ o, i ≠ .jsr o) → (∀ b, i ≠ .jsrr b) → t.pc = s.pc) := by
  cases i with
  | trap | getc | out | puts | inChar | putsp | halt => simp [trapVector] at hv
  | ld d o | ldr d b o =>
    obtain ⟨w, u, hm, rfl⟩ := h
    obtain ⟨a, b, c, d', e, f, g, h1, h2⟩ := State.memRead_frame hm
    refine ⟨e, g, h1, f, ?_, fun _ _ => d', by simp, by simp, ?_, by simp [Instr.flagReg], fun _ _ _ => h2, fun _ _ _ _ => b⟩
    · intro r hr; simp [Instr.regsWritten] at hr; simp [hr]; simp [State.x, a]
    · intro d hd; simp [Instr.flagReg] at hd; subst hd; simp; exact flagTable_flagOf _
  | ldi d o =>
    obtain ⟨ea, u, w, v, hm, hm2, rfl⟩ := h
    obtain ⟨a, b, c, d', e, f, g, ⟨us, h1⟩, h2⟩ := State.memRead_frame hm
    obtain ⟨a', b', c', d'', e', f', g', ⟨us', h1'⟩, h2'⟩ := State.memRead_frame hm2
    refine ⟨e'.trans e, g'.trans g, ⟨us ++ us', by simp [h1, h1']⟩, f'.trans f, ?_, fun _ _ => d''.trans d', by simp, by simp, ?_, by simp [Instr.flagReg], fun _ _ _ p hp => (h2' p (by rw [e]; exact hp)).trans (h2 p hp), fun _ _ _ _ => b'.trans b⟩
    · intro r hr; simp [Instr.regsWritten] at hr; simp [hr]; simp [State.x, a, a']
    · intro d hd; simp [Instr.flagReg] at hd; subst hd; simp; exact flagTable_flagOf _
  | sti d o =>
    obtain ⟨w, u, hm, rfl⟩ := h
    obtain ⟨a, b, c, d', e, f, g, h1, h2⟩ := State.memRead_frame hm
    refine ⟨e, g, h1, f, ?_, fun _ _ => d', by simp, by simp, by simp [Instr.flagReg], fun _ => c, by simp, fun _ _ _ _ => b⟩
    · intro r hr;  simp [State.x, a]
  | br n z p o =>
    subst h
    refine ⟨?_, ?_, ⟨[], ?_⟩, ?_, ?_, ?_, by simp, by simp, by simp [Instr.flagReg], ?_, ?_, fun h => absurd rfl (h _ _ _ _)⟩ <;> split <;> simp
  | jsr | jsrr =>
    subst h
    refine ⟨rfl, rfl, ⟨[], rfl⟩, rfl, ?_, fun _ _ => rfl, by simp, by simp, by simp [Instr.flagReg], fun _ => rfl, fun _ _ _ _ _ => rfl, by simp⟩
    intro r hr; simp [Instr.regsWritten] at hr; simp [hr]
  | jmp =>
    subst h
    exact ⟨rfl, rfl, ⟨[], rfl⟩, rfl, fun _ _ => rfl, fun _ _ => rfl, by simp, by simp, by simp [Instr.flagReg], fun _ => rfl, fun _ _ _ _ _ => rfl, by simp⟩
  | st | str =>
    subst h
    exact ⟨rfl, rfl, ⟨[], rfl⟩, rfl, fun _ _ => rfl, fun _ _ => rfl, by simp, by simp, by simp [Instr.flagReg], fun _ => rfl, by simp, by simp⟩
  | rti | res =>
    subst h
    exact ⟨rfl, rfl, ⟨[], rfl⟩, rfl, fun _ _ => rfl, by simp, by simp, by simp, by simp [Instr.flagReg], fun _ => rfl, fun _ _ _ _ _ => rfl, by simp⟩
  | addReg | addImm | andReg | andImm | not | lea =>
    subst h
    refine ⟨rfl, rfl, ⟨[], rfl⟩, rfl, ?_, fun _ _ => rfl, by simp, by simp, ?_, by simp [Instr.flagReg], fun _ _ _ _ _ => rfl, fun _ _ _ _ => rfl⟩
    · intro r hr; simp [Instr.regsWritten] at hr; simp [hr]
    · intro d hd; simp [Instr.flagReg] at hd; subst hd; simp; exact flagTable_flagOf _

end Sys2Proof.Machine
end

