-- ==== Sys2Proof/Laws/Boot.lean ====
section
/-! SUPPORT. The string loop under its bound against the loop of R173 and R175 (the relations of Safety.lean), and what
loading images leaves. -/

namespace Sys2Proof.Machine

variable {bytes : Word → List Byte × Bool}

/-- Where the loop of the rule exits, the loop under its bound is done in that state. -/
theorem stringLoop_of_ends {a : Word} {s u : State} (h : StringEnds bytes a s u) : ∀ n, s.cfg.wf → s.stringFuel a ≤ n → stringLoop bytes n a s = .done u := by
  induction h with
  | stop hr hx =>
    intro n hc hn
    cases n with
    | zero => simp [State.stringFuel] at hn
    | succ n => exact stringLoop_stop hr hx
  | more hr hg _ ih =>
    intro n hc hn
    cases n with
    | zero => simp [State.stringFuel] at hn
    | succ n =>
      rw [stringLoop_more hr hg]
      have := memRead_fuel hc hr
      apply ih
      · show _ ≠ _; rw [(State.memRead_frame hr).2.2.2.2.1]; exact hc
      · rename_i t' w' _ _; show t'.stringFuel _ ≤ n; omega

/-- Where the loop of the rule comes to a read that waits, the loop under its bound waits. -/
theorem stringLoop_of_waits {a : Word} {s : State} (h : StringWaits bytes a s) : ∀ n, s.cfg.wf → s.stringFuel a ≤ n → stringLoop bytes n a s = .waits := by
  induction h with
  | here hr =>
    intro n hc hn
    cases n with
    | zero => simp [State.stringFuel] at hn
    | succ n => exact stringLoop_waits hr
  | later hr hg _ ih =>
    intro n hc hn
    cases n with
    | zero => simp [State.stringFuel] at hn
    | succ n =>
      rw [stringLoop_more hr hg]
      have := memRead_fuel hc hr
      apply ih
      · show _ ≠ _; rw [(State.memRead_frame hr).2.2.2.2.1]; exact hc
      · rename_i t' _ _; show t'.stringFuel _ ≤ n; omega

/-- One of the two always happens. -/
theorem stringEnds_or_stringWaits (n : Nat) : ∀ (a : Word) (s : State), s.cfg.wf → s.stringFuel a ≤ n → (∃ u, StringEnds bytes a s u) ∨ StringWaits bytes a s := by
  induction n with
  | zero => intro a s hc hn; simp [State.stringFuel] at hn
  | succ n ih =>
    intro a s hc hn
    cases hr : s.memRead a with
    | none => exact .inr (.here hr)
    | some p =>
      obtain ⟨w, t⟩ := p
      cases hb : (bytes w).2 with
      | false => exact .inl ⟨_, .stop hr hb⟩
      | true =>
        have hf := memRead_fuel hc hr
        rcases ih (a + 1) { t with out := t.out ++ (bytes w).1 } (by show _ ≠ _; rw [(State.memRead_frame hr).2.2.2.2.1]; exact hc) (by show t.stringFuel _ ≤ n; omega) with ⟨u, hu⟩ | hu
        · exact .inl ⟨u, .more hr hb hu⟩
        · exact .inr (.later hr hb hu)

/-- R254: each Word stands at its address, and every other cell is as it was. -/
theorem State.loadWords_cell : ∀ (ws : List Word) (s : State) (b : Word), ws.length ≤ 65536 → 
   (∀ i, ∀ h : i < ws.length, (s.loadWords b ws).cell (b + BitVec.ofNat 16 i) = ws[i]) ∧
   (∀ a : Word, ws.length ≤ (a - b).toNat → (s.loadWords b ws).cell a = s.cell a) := by
  intro ws
  induction ws with
  | nil => intro s b _; exact ⟨fun i h => by simp at h, fun a _ => rfl⟩
  | cons w ws ih =>
    intro s b hl
    simp at hl
    obtain ⟨h1, h2⟩ := ih (s.memWrite b w) (b + 1) (by omega)
    refine ⟨fun i hi => ?_, fun a ha => ?_⟩
    · cases i with
      | zero =>
        show ((s.memWrite b w).loadWords (b + 1) ws).cell (b + 0#16) = w
        rw [BitVec.add_zero, h2]
        · simp
        · have : (b - (b + 1)).toNat = 65535 := by bv_omega
          rw [this]; omega
      | succ i =>
        have := h1 i (by simpa using hi)
        have e : b + BitVec.ofNat 16 (i + 1) = b + 1 + BitVec.ofNat 16 i := by
          bv_omega
        rw [e]; exact this
    · have hne : a ≠ b := by rintro rfl; simp at ha
      have := h2 a (by simp at ha; have := BitVec.toNat_ne.1 hne; bv_omega)
      show ((s.memWrite b w).loadWords (b + 1) ws).cell a = _
      rw [this]; simp [hne]

/-- Loading changes memory alone, and keeps its canonical form. -/
theorem State.loadWords_frame : ∀ (ws : List Word) (s : State) (b : Word), ∃ m, s.loadWords b ws = { s with mem := m } ∧ (s.mem.wf s.unlisted → Memory.wf s.unlisted m) := by
  intro ws
  induction ws with
  | nil => intro s b; exact ⟨s.mem, rfl, id⟩
  | cons w ws ih =>
    intro s b
    obtain ⟨m, e, h⟩ := ih (s.memWrite b w) (b + 1)
    exact ⟨m, e, fun hw => h (Memory.wf_set _ _ hw)⟩

/-- R255: the last image is loaded over what the others left. -/
theorem State.loadAll_append (l : List Image) (img : Image) : ∀ s : State, s.loadAll (l ++ [img]) = match s.loadAll l with | .error e => .error e | .ok t => t.load img := by
  induction l with
  | nil => intro s; simp [State.loadAll]; cases s.load img <;> rfl
  | cons x l ih => intro s; simp [State.loadAll]; cases s.load x <;> simp [ih]

/-- Loading images changes memory alone, and keeps its canonical form. -/
theorem State.loadAll_frame (l : List Image) : ∀ s t : State, s.loadAll l = .ok t → ∃ m, t = { s with mem := m } ∧ (s.mem.wf s.unlisted → Memory.wf s.unlisted m) := by
  induction l with
  | nil => intro s t h; cases h; exact ⟨_, rfl, id⟩
  | cons x l ih =>
    intro s t h
    simp only [State.loadAll] at h
    split at h
    · cases h
    · next u hu =>
      obtain ⟨m, rfl, h2⟩ := ih _ _ h
      unfold State.load at hu
      split at hu
      · cases hu
        obtain ⟨m', e, h3⟩ := State.loadWords_frame x.words s x.base
        rw [e] at h2 ⊢
        exact ⟨m, rfl, fun hw => h2 (h3 hw)⟩
      · cases hu

/-- R250, R256: a boot that succeeds is a reset and the loading of all the images, of which there is one at least. -/
theorem State.boot_eq_ok {s t : State} {imgs : List Image} :
    s.boot imgs = .ok t ↔ imgs ≠ [] ∧ s.hostReset.loadAll imgs = .ok t := by
  cases imgs with
  | nil => simp [State.boot]
  | cons img rest => cases h : s.hostReset.load img <;> simp [State.boot, State.loadAll, h]

/-- R257: images that fit all load. -/
theorem State.loadAll_fits {imgs : List Image}
    (h : ∀ img ∈ imgs, img.base.toNat + img.words.length ≤ Config.memWords) (s : State) :
    ∃ t, s.loadAll imgs = .ok t := by
  induction imgs generalizing s with
  | nil => exact ⟨s, rfl⟩
  | cons img rest ih =>
    have hfit := h img List.mem_cons_self
    simp only [State.loadAll, State.load, hfit, if_true]
    exact ih (fun i hi => h i (List.mem_cons_of_mem _ hi)) _

end Sys2Proof.Machine
end

