-- ==== Sys2Proof/Laws/PerInstr.lean ====
section
/-! SUPPORT. A family of lemmas about the instruction as syntax, one per constructor: the Word of an instruction fits its
row of spec/opcode_table.json (match and mask, R72, R73). -/

namespace Sys2Proof.Laws

/-- The encoding of `i` meets the match and mask of its row. -/
def EncodeFitsRow.Statement (i : Instr) : Prop := i.row.fits (encode i) = true

/-- Fitting a row is a fact about the sixteen bits. -/
theorem fits_of_bits {r : TableRow} {w : Word}
    (h : ∀ i < 16, (w.getLsbD i && r.mask.getLsbD i) = r.pattern.getLsbD i) : r.fits w = true := by
  simp only [TableRow.fits, beq_iff_eq]
  exact BitVec.eq_of_getLsbD_eq fun i hi => by simpa using h i hi

theorem EncodeFitsRow.br (n : Bool) (z : Bool) (p : Bool) (o : BitVec 9) : EncodeFitsRow.Statement (.br n z p o) :=
  fits_of_bits fun k hk => by
    simp only [encode, encodeFormatD_getLsbD, Instr.row, opcodeRow, opcodeMask, fieldMask, place_getLsbD]
    interval_cases k <;> simp

theorem EncodeFitsRow.addReg (d : Reg) (a : Reg) (b : Reg) : EncodeFitsRow.Statement (.addReg d a b) :=
  fits_of_bits fun k hk => by
    simp only [encode, encodeFormatA_getLsbD, Instr.row, flagRow, opcodeMask, fieldMask, place_getLsbD,
      BitVec.getLsbD_or]
    interval_cases k <;> simp

theorem EncodeFitsRow.addImm (d : Reg) (a : Reg) (i : BitVec 5) : EncodeFitsRow.Statement (.addImm d a i) :=
  fits_of_bits fun k hk => by
    simp only [encode, encodeFormatB_getLsbD, Instr.row, flagRow, opcodeMask, fieldMask, place_getLsbD,
      BitVec.getLsbD_or]
    interval_cases k <;> simp

theorem EncodeFitsRow.ld (d : Reg) (o : BitVec 9) : EncodeFitsRow.Statement (.ld d o) :=
  fits_of_bits fun k hk => by
    simp only [encode, encodeFormatE_getLsbD, Instr.row, opcodeRow, opcodeMask, fieldMask, place_getLsbD]
    interval_cases k <;> simp

theorem EncodeFitsRow.st (d : Reg) (o : BitVec 9) : EncodeFitsRow.Statement (.st d o) :=
  fits_of_bits fun k hk => by
    simp only [encode, encodeFormatE_getLsbD, Instr.row, opcodeRow, opcodeMask, fieldMask, place_getLsbD]
    interval_cases k <;> simp

theorem EncodeFitsRow.jsr (o : BitVec 11) : EncodeFitsRow.Statement (.jsr o) :=
  fits_of_bits fun k hk => by
    simp only [encode, encodeFormatH_getLsbD, Instr.row, flagRow, opcodeMask, fieldMask, place_getLsbD,
      BitVec.getLsbD_or]
    interval_cases k <;> simp

theorem EncodeFitsRow.jsrr (b : Reg) : EncodeFitsRow.Statement (.jsrr b) :=
  fits_of_bits fun k hk => by
    simp only [encode, encodeFormatI_getLsbD, Instr.row, flagRow, opcodeMask, fieldMask, place_getLsbD,
      BitVec.getLsbD_or]
    interval_cases k <;> simp

theorem EncodeFitsRow.andReg (d : Reg) (a : Reg) (b : Reg) : EncodeFitsRow.Statement (.andReg d a b) :=
  fits_of_bits fun k hk => by
    simp only [encode, encodeFormatA_getLsbD, Instr.row, flagRow, opcodeMask, fieldMask, place_getLsbD,
      BitVec.getLsbD_or]
    interval_cases k <;> simp

theorem EncodeFitsRow.andImm (d : Reg) (a : Reg) (i : BitVec 5) : EncodeFitsRow.Statement (.andImm d a i) :=
  fits_of_bits fun k hk => by
    simp only [encode, encodeFormatB_getLsbD, Instr.row, flagRow, opcodeMask, fieldMask, place_getLsbD,
      BitVec.getLsbD_or]
    interval_cases k <;> simp

theorem EncodeFitsRow.ldr (d : Reg) (b : Reg) (o : BitVec 6) : EncodeFitsRow.Statement (.ldr d b o) :=
  fits_of_bits fun k hk => by
    simp only [encode, encodeFormatF_getLsbD, Instr.row, opcodeRow, opcodeMask, fieldMask, place_getLsbD]
    interval_cases k <;> simp

theorem EncodeFitsRow.str (d : Reg) (b : Reg) (o : BitVec 6) : EncodeFitsRow.Statement (.str d b o) :=
  fits_of_bits fun k hk => by
    simp only [encode, encodeFormatF_getLsbD, Instr.row, opcodeRow, opcodeMask, fieldMask, place_getLsbD]
    interval_cases k <;> simp

theorem EncodeFitsRow.rti (l : BitVec 12) : EncodeFitsRow.Statement (.rti l) :=
  fits_of_bits fun k hk => by
    simp only [encode, encodeFormatK_getLsbD, Instr.row, opcodeRow, opcodeMask, fieldMask, place_getLsbD]
    interval_cases k <;> simp

theorem EncodeFitsRow.not (d : Reg) (a : Reg) : EncodeFitsRow.Statement (.not d a) :=
  fits_of_bits fun k hk => by
    simp only [encode, encodeFormatC_getLsbD, Instr.row, opcodeRow, opcodeMask, fieldMask, place_getLsbD]
    interval_cases k <;> simp

theorem EncodeFitsRow.ldi (d : Reg) (o : BitVec 9) : EncodeFitsRow.Statement (.ldi d o) :=
  fits_of_bits fun k hk => by
    simp only [encode, encodeFormatE_getLsbD, Instr.row, opcodeRow, opcodeMask, fieldMask, place_getLsbD]
    interval_cases k <;> simp

theorem EncodeFitsRow.sti (d : Reg) (o : BitVec 9) : EncodeFitsRow.Statement (.sti d o) :=
  fits_of_bits fun k hk => by
    simp only [encode, encodeFormatE_getLsbD, Instr.row, opcodeRow, opcodeMask, fieldMask, place_getLsbD]
    interval_cases k <;> simp

theorem EncodeFitsRow.jmp (b : Reg) : EncodeFitsRow.Statement (.jmp b) :=
  fits_of_bits fun k hk => by
    simp only [encode, encodeFormatG_getLsbD, Instr.row, opcodeRow, opcodeMask, fieldMask, place_getLsbD]
    interval_cases k <;> simp

theorem EncodeFitsRow.res (l : BitVec 12) : EncodeFitsRow.Statement (.res l) :=
  fits_of_bits fun k hk => by
    simp only [encode, encodeFormatK_getLsbD, Instr.row, opcodeRow, opcodeMask, fieldMask, place_getLsbD]
    interval_cases k <;> simp

theorem EncodeFitsRow.lea (d : Reg) (o : BitVec 9) : EncodeFitsRow.Statement (.lea d o) :=
  fits_of_bits fun k hk => by
    simp only [encode, encodeFormatE_getLsbD, Instr.row, opcodeRow, opcodeMask, fieldMask, place_getLsbD]
    interval_cases k <;> simp

theorem EncodeFitsRow.trap (v : BitVec 8) : EncodeFitsRow.Statement (.trap v) :=
  fits_of_bits fun k hk => by
    simp only [encode, encodeFormatJ_getLsbD, Instr.row, opcodeRow, opcodeMask, fieldMask, place_getLsbD]
    interval_cases k <;> simp

theorem EncodeFitsRow.getc : EncodeFitsRow.Statement (.getc) := rfl

theorem EncodeFitsRow.out : EncodeFitsRow.Statement (.out) := rfl

theorem EncodeFitsRow.puts : EncodeFitsRow.Statement (.puts) := rfl

theorem EncodeFitsRow.inChar : EncodeFitsRow.Statement (.inChar) := rfl

theorem EncodeFitsRow.putsp : EncodeFitsRow.Statement (.putsp) := rfl

theorem EncodeFitsRow.halt : EncodeFitsRow.Statement (.halt) := rfl

end Sys2Proof.Laws
end

