-- ==== Sys2Proof/Tests/Slice0.lean ====
section
/-! SUPPORT. Tests. Expected results are the spec's own vectors (spec/95_test_vectors.md, V<n>) or hand assembly from R72
and R73; a test's name ends in its vector. The last part shows, for each statement of Obligations.lean that has
hypotheses, data that meet them (`wit_<name>`). -/

namespace Sys2Proof.Tests
open Sys2Proof.Machine

/-! ## Helpers -/

/-- A reset state about to fetch at `pc`, with these Words in memory. -/
def at_ (pc : Word) (cond : Cond) (mem : Memory) : State := { State.reset with pc := pc, cond := cond, mem := mem }

/-- With this input typed. -/
def typed (s : State) (bs : List Byte) : State := { s with inq := bs }

/-- With `TRAP_INPUT_SETS_FLAGS` set and `PUTSP_STOP` = zero_word: the other settings of both. -/
def other (s : State) : State :=
  { s with cfg := { s.cfg with trapInputSetsFlags := true, putspStop := .zeroWord } }

/-- What `f` says of the state one step leads to; none where there is no next state. -/
def after {α : Type} (f : State → α) (s : State) : Option α :=
  match step s with
  | .next t => some (f t)
  | .fault _ => none
  | .refused _ => none

/-! ## WellFormed refuses each ill-formed term -/

theorem test_wf_refuses_routine_vectors :
    (Instr.trap 0x20).wellFormed = false ∧ (Instr.trap 0x21).wellFormed = false ∧
    (Instr.trap 0x22).wellFormed = false ∧ (Instr.trap 0x23).wellFormed = false ∧
    (Instr.trap 0x24).wellFormed = false ∧ (Instr.trap 0x25).wellFormed = false := by decide

theorem test_wf_accepts_other_vectors :
    (Instr.trap 0x1F).wellFormed = true ∧ (Instr.trap 0x26).wellFormed = true ∧
    Instr.getc.wellFormed = true ∧ Instr.halt.wellFormed = true := by decide

/-! ## Decode: Words assembled by hand from R72 and R73 -/

/-- 0001 010 000 000 001; 0001 001 001 1 11111; 0101 011 001 000 010; 0101 001 010 1 10000; 1001 011 010 111111. -/
theorem test_decode_operate :
    decode 0x1401 = .addReg .r2 .r0 .r1 ∧ decode 0x127F = .addImm .r1 .r1 0x1F ∧
    decode 0x5642 = .andReg .r3 .r1 .r2 ∧ decode 0x52B0 = .andImm .r1 .r2 0x10 ∧
    decode 0x96BF = .not .r3 .r2 := by decide

/-- 0000 101 000000101; 1100 000 111 000000; 0100 1 10000000000; 0100 000 010 000000. -/
theorem test_decode_control :
    decode 0x0A05 = .br true false true 5 ∧ decode 0x01FF = .br false false false 0x1FF ∧
    decode 0xC1C0 = .jmp .r7 ∧ decode 0x4C00 = .jsr 0x400 ∧ decode 0x4080 = .jsrr .r2 := by decide

/-- 0010 101 000000011; 0011 100 000001000; 0110 000 001 100000; 0111 011 001 000001; 1010 100 000000111;
1011 010 000000110; 1110 000 111111111. -/
theorem test_decode_load_store :
    decode 0x2A03 = .ld .r5 3 ∧ decode 0x3808 = .st .r4 8 ∧ decode 0x6060 = .ldr .r0 .r1 0x20 ∧
    decode 0x7641 = .str .r3 .r1 1 ∧ decode 0xA807 = .ldi .r4 7 ∧ decode 0xB406 = .sti .r2 6 ∧
    decode 0xE1FF = .lea .r0 0x1FF := by decide

/-- 1111 0000 and the vector; 1000 and 1101 with low bits that are kept for `halt_reason`. -/
theorem test_decode_trap :
    decode 0xF020 = .getc ∧ decode 0xF021 = .out ∧ decode 0xF022 = .puts ∧ decode 0xF023 = .inChar ∧
    decode 0xF024 = .putsp ∧ decode 0xF025 = .halt ∧ decode 0xF01F = .trap 0x1F ∧ decode 0xF026 = .trap 0x26 ∧
    decode 0x8ABC = .rti 0xABC ∧ decode 0xDFFF = .res 0xFFF := by decide

/-- R77: V9, V19, V31, V37, V88. -/
theorem test_decode_unused_bits :
    decode 0x1419 = decode 0x1401 ∧ decode 0x9680 = decode 0x96BF ∧ decode 0xCEBF = decode 0xC080 ∧
    decode 0x46BF = decode 0x4080 ∧ decode 0xF125 = decode 0xF025 := by decide

/-- R73: the unused bits at their standard values. -/
theorem test_encode_standard :
    encode (.not .r3 .r2) = 0x96BF ∧ encode (.jsrr .r2) = 0x4080 ∧ encode (.trap 0xFF) = 0xF0FF ∧
    encode .halt = 0xF025 ∧ encode (.res 0xFFF) = 0xDFFF := by decide

theorem test_table_word :
    decodeTableWord 16 0x5020 = some (.andImm .r0 .r0 0) ∧ decodeTableWord 32 0x5020 = none ∧
    decodeStream [] = .error .noWord := by decide

theorem test_fetch_word_runs_first :
    after (fun t => (t.x .r1, t.pc, t.cond)) (State.reset.withFetchWord 16 0x1265) = some (5, 0x3001, .pos) ∧
    after (fun t => (t.run, t.pc)) ((at_ 0xFE02 .zro []).withFetchWord 16 0xD000) =
      some (.halted (.invalidOpcode 0xD000), 0x3001) := by decide

/-! ## Operate -/

theorem test_addReg_v2 :
    after (fun t => (t.x .r0, t.pc, t.cond)) ((at_ 0x3000 .neg [(0x3000, 0x1000)]).setX .r0 0x8000) =
      some (0, 0x3001, .zro) := by decide

theorem test_addReg_v3 :
    after (fun t => (t.x .r1, t.x .r2, t.cond))
      (((at_ 0x3000 .pos [(0x3000, 0x1242)]).setX .r1 0x7FFF).setX .r2 1) = some (0x8000, 1, .neg) := by decide

theorem test_addImm_v5 :
    after (fun t => (t.x .r1, t.pc, t.cond)) (at_ 0x3000 .zro [(0x3000, 0x127F)]) =
      some (0xFFFF, 0x3001, .neg) := by decide

theorem test_addImm_v7 :
    after (fun t => (t.x .r3, t.x .r4, t.cond)) ((at_ 0x3000 .pos [(0x3000, 0x1730)]).setX .r4 0x10) =
      some (0, 0x10, .zro) := by decide

theorem test_andReg_v10 :
    after (fun t => (t.x .r3, t.cond))
      (((at_ 0x3000 .zro [(0x3000, 0x5642)]).setX .r1 0xF0F0).setX .r2 0x8FF1) = some (0x80F0, .neg) := by decide

theorem test_andImm_v13 :
    after (fun t => (t.x .r1, t.cond)) ((at_ 0x3000 .zro [(0x3000, 0x52B0)]).setX .r2 0x1234) =
      some (0x1230, .pos) := by decide

theorem test_not_v18 :
    after (fun t => (t.x .r1, t.cond)) ((at_ 0x3000 .neg [(0x3000, 0x927F)]).setX .r1 0x8000) =
      some (0x7FFF, .pos) := by decide

/-! ## Control -/

theorem test_br_v23 :
    after (fun t => (t.pc, t.cond)) (at_ 0x3000 .zro [(0x3000, 0x0A05)]) = some (0x3001, .zro) := by decide

theorem test_br_v27 :
    after (fun t => (t.pc, t.cond)) (at_ 0xFFFF .zro [(0xFFFF, 0x0EFF)]) = some (0x00FF, .zro) := by decide

theorem test_jmp_v31 :
    after (fun t => (t.pc, t.x .r7)) ((at_ 0x3000 .zro [(0x3000, 0xCEBF)]).setX .r2 0x4000) =
      some (0x4000, 0) := by decide

theorem test_jsr_v33 :
    after (fun t => (t.x .r7, t.pc, t.cond)) (at_ 0x3000 .zro [(0x3000, 0x4C00)]) =
      some (0x3001, 0x2C01, .zro) := by decide

theorem test_jsrr_v35 :
    after (fun t => (t.x .r7, t.pc, t.cond)) ((at_ 0x3001 .pos [(0x3001, 0x4080)]).setX .r2 0x5000) =
      some (0x3002, 0x5000, .pos) := by decide

theorem test_jsrr_v36 :
    after (fun t => (t.x .r7, t.pc)) ((at_ 0x3000 .zro [(0x3000, 0x41C0)]).setX .r7 0x1234) =
      some (0x3001, 0x3001) := by decide

/-! ## Loads, stores, the device registers -/

theorem test_ld_v43 :
    after (fun t => (t.x .r0, t.pc, t.cond)) (at_ 0xFFF0 .zro [(0x00F0, 0x1111), (0xFFF0, 0x20FF)]) =
      some (0x1111, 0xFFF1, .pos) := by decide

theorem test_ld_v46 :
    after (fun t => (t.x .r0, t.cond, t.cell 0xFE02, t.inq)) (typed (at_ 0xFE01 .zro [(0xFE01, 0x2000)]) [0x41]) =
      some (0x41, .pos, 0x41, []) := by decide

theorem test_ldi_v48 :
    after (fun t => (t.x .r4, t.cond))
      (at_ 0x3005 .zro [(0x3005, 0xA807), (0x300B, 0xFFFB), (0x300D, 0x300B)]) = some (0xFFFB, .neg) := by decide

theorem test_ldi_v49 :
    after (fun t => (t.x .r1, t.cond, t.inq))
      (typed (at_ 0x3000 .zro [(0x3000, 0xA206), (0x3007, 0xFE00)]) [0x78]) = some (0x8000, .neg, [0x78]) := by decide

theorem test_ldr_v51 :
    after (fun t => (t.x .r1, t.cond)) ((at_ 0x3000 .zro [(0x3000, 0x627F), (0x4000, 0x4000)]).setX .r1 0x4001) =
      some (0x4000, .pos) := by decide

theorem test_ldr_v53 :
    after (fun t => (t.x .r0, t.cond)) ((at_ 0x3000 .zro [(0x3000, 0x6060), (0x4000, 0x8001)]).setX .r1 0x4020) =
      some (0x8001, .neg) := by decide

theorem test_lea_v55 :
    after (fun t => (t.x .r0, t.pc, t.cond)) (at_ 0x8000 .zro [(0x8000, 0xE1FF)]) =
      some (0x8000, 0x8001, .neg) := by decide

theorem test_st_v58 :
    after (fun t => (t.mem, t.cond)) ((at_ 0x3000 .pos [(0x3000, 0x31FF)]).setX .r0 0xF025) =
      some ([(0x3000, 0xF025)], .pos) := by decide

theorem test_st_v62 :
    after (fun t => (t.cell 0xFE00, (t.memRead 0xFE00).map Prod.fst))
      ((at_ 0xFDFF .pos [(0xFDFF, 0x3000)]).setX .r0 0x1234) = some (0x1234, some 0) := by decide

theorem test_sti_v59 :
    after (fun t => (t.cell 0x300C, t.cell 0x300E, t.cond))
      ((at_ 0x3007 .pos [(0x3007, 0xB406), (0x300E, 0x300C)]).setX .r2 5) = some (5, 0x300C, .pos) := by decide

theorem test_str_v60 :
    after (fun t => (t.cell 0x300A, t.cell 0x300B, t.cond))
      (((at_ 0x3000 .neg [(0x3000, 0x7641)]).setX .r1 0x300A).setX .r3 0xFFFB) = some (0, 0xFFFB, .neg) := by decide

/-- V47: nothing changes, so the next step is the same. -/
theorem test_ld_waits_v47 :
    after id (at_ 0xFE01 .zro [(0xFE01, 0x2000)]) = some (at_ 0xFE01 .zro [(0xFE01, 0x2000)]) := by decide

/-! ## TRAP, RTI, RES -/

theorem test_getc_v71 :
    after (fun t => (t.x .r0, t.x .r7, t.pc, t.cond, t.inq))
      ((typed (other (at_ 0x3004 .neg [(0x3004, 0xF020)])) [0x62]).setX .r0 0xFFFF) =
      some (0x62, 0x3005, 0x3005, .pos, []) := by decide

theorem test_getc_v72 :
    after (fun t => (t.x .r0, t.cond, t.out)) (typed (at_ 0x3000 .zro [(0x3000, 0xF020)]) [0x80]) =
      some (0x80, .zro, []) := by decide

theorem test_getc_waits_v73 :
    after id (at_ 0x3000 .zro [(0x3000, 0xF020)]) = some (at_ 0x3000 .zro [(0x3000, 0xF020)]) := by decide

theorem test_out_v74 :
    after (fun t => (t.out, t.x .r7, t.cond)) ((at_ 0x3000 .zro [(0x3000, 0xF021)]).setX .r0 0x1241) =
      some ([0x41], 0x3001, .zro) := by decide

theorem test_puts_v76 :
    after (fun t => (t.out, t.x .r0, t.x .r7))
      ((at_ 0x3000 .zro [(0x3000, 0xF022), (0x4000, 0x41), (0x4001, 0x4100), (0x4002, 0x42)]).setX .r0 0x4000) =
      some ([0x41, 0x00, 0x42], 0x4000, 0x3001) := by decide

theorem test_puts_v78 :
    after (fun t => (t.out, t.run))
      ((at_ 0x3000 .zro [(0x0000, 0x42), (0x3000, 0xF022), (0xFFFF, 0x41)]).setX .r0 0xFFFF) =
      some ([0x41, 0x42], .running) := by decide

theorem test_in_v79 :
    after (fun t => (t.x .r0, t.out)) (typed (at_ 0x3000 .zro [(0x3000, 0xF023)]) [0x61]) =
      some (0x61, [0x45, 0x6E, 0x74, 0x65, 0x72, 0x20, 0x61, 0x20, 0x63, 0x68, 0x61, 0x72, 0x61, 0x63, 0x74, 0x65,
        0x72, 0x3A, 0x20, 0x61]) := by decide

theorem test_putsp_v83 :
    after (fun t => t.out)
      ((at_ 0x3000 .zro [(0x3000, 0xF024), (0x4000, 0x48), (0x4001, 0x69)]).setX .r0 0x4000) = some [0x48] := by decide

theorem test_putsp_v86 :
    after (fun t => t.out)
      ((other (at_ 0x3000 .zro [(0x3000, 0xF024), (0x4000, 0x4100), (0x4001, 0x42)])).setX .r0 0x4000) =
      some [0x00, 0x41, 0x42] := by decide

theorem test_halt_v88 :
    after (fun t => (t.run, t.x .r7, t.pc, t.cond, t.out)) (at_ 0x3006 .pos [(0x3006, 0xF125)]) =
      some (.halted .halt, 0x3007, 0x3007, .pos, []) := by decide

theorem test_trap_v89 :
    after (fun t => (t.run, t.x .r7, t.pc)) (at_ 0x3001 .pos [(0x3001, 0xF026)]) =
      some (.halted (.invalidTrapVector 0x26), 0x3002, 0x3002) := by decide

theorem test_rti_v94 :
    after (fun t => (t.run, t.gpr, t.pc)) (at_ 0x3000 .zro [(0x3000, 0x8ABC)]) =
      some (.halted (.invalidOpcode 0x8ABC), State.reset.gpr, 0x3001) := by decide

theorem test_res_v96 :
    after (fun t => (t.run, t.gpr, t.cond)) (at_ 0x3000 .zro [(0x3000, 0xDFFF)]) =
      some (.halted (.invalidOpcode 0xDFFF), State.reset.gpr, .zro) := by decide

/-! ## Fetch, the environment, loading -/

theorem test_fetch_v100 :
    after (fun t => (t.x .r0, t.pc)) (at_ 0xFFFF .zro [(0xFFFF, 0x1021)]) = some (1, 0x0000) := by decide

theorem test_fetch_v102 :
    after (fun t => (t.run, t.pc, t.inq)) (typed (at_ 0xFE00 .pos [(0xFE00, 0x1021)]) [0x6B]) =
      some (.halted (.invalidOpcode 0x8000), 0xFE01, [0x6B]) := by decide

theorem test_fetch_v103 :
    after (fun t => (t.pc, t.cond, t.cell 0xFE02, t.inq)) (typed (at_ 0xFE02 .zro []) [0x25]) =
      some (0xFE03, .zro, 0x25, []) := by decide

/-- R207: the byte arrives before the step that needs it. -/
theorem test_arrival_ends_a_wait :
    after (fun t => (t.x .r0, t.inq, t.arrivals))
      { at_ 0x3000 .zro [(0x3000, 0xF020)] with arrivals := [[0x61, 0x62], [0x63]] } =
      some (0x61, [0x62], [[0x63]]) := by decide

/-- R255: the later image wins. R256: no image, no run. -/
theorem test_boot_order :
    ((State.reset.boot [⟨0x3000, [1, 2]⟩, ⟨0x3001, [3]⟩]).toOption.map fun t => t.mem) =
      some [(0x3000, 1), (0x3001, 3)] ∧ (State.reset.boot []).toOption = none := by decide

/-- R258: big-endian, the load address first. -/
theorem test_image_file : imageOfFile [0x30, 0x00, 0xF0, 0x25] = some ⟨0x3000, [0xF025]⟩ := by decide

/-! ## Data that meet the hypotheses of the statements -/

theorem wit_DecodeInvertsEncode : (Instr.ldr .r7 .r0 0x3F).wellFormed = true ∧ (Instr.trap 0xFF).wellFormed = true := by
  decide

theorem wit_UnusedBitsIgnored : (0x0018 : Word) &&& (decode 0x1401).usedBits = 0 := by decide

theorem wit_OperateWordsDecode :
    ((0x1E3F : Word).extractLsb' 9 3 = Reg.r7.toBits ∧ (0x1E3F : Word).extractLsb' 6 3 = Reg.r0.toBits ∧
      (0x1E3F : Word).extractLsb' 0 3 = Reg.r7.toBits ∧ (0x1E3F : Word).extractLsb' 0 5 = (0x1F : BitVec 5) ∧
      (0x1E3F : Word).extractLsb' 12 4 = 0b0001 ∧ (0x1E3F : Word).extractLsb' 5 1 = 1) ∧
    ((0x1401 : Word).extractLsb' 12 4 = 0b0001 ∧ (0x1401 : Word).extractLsb' 5 1 = 0) ∧
    ((0x5642 : Word).extractLsb' 12 4 = 0b0101 ∧ (0x5642 : Word).extractLsb' 5 1 = 0) ∧
    ((0x52B0 : Word).extractLsb' 12 4 = 0b0101 ∧ (0x52B0 : Word).extractLsb' 5 1 = 1) ∧
    (0x96BF : Word).extractLsb' 12 4 = 0b1001 := by decide

theorem wit_ControlWordsDecode :
    ((0x0BFF : Word).extractLsb' 11 1 = BitVec.ofBool true ∧ (0x0BFF : Word).extractLsb' 10 1 = BitVec.ofBool false ∧
      (0x0BFF : Word).extractLsb' 9 1 = BitVec.ofBool true ∧ (0x0BFF : Word).extractLsb' 6 3 = Reg.r7.toBits ∧
      (0x0BFF : Word).extractLsb' 0 9 = (0x1FF : BitVec 9) ∧ (0x0BFF : Word).extractLsb' 0 11 = (0x3FF : BitVec 11) ∧
      (0x0BFF : Word).extractLsb' 12 4 = 0b0000) ∧
    (0xC1C0 : Word).extractLsb' 12 4 = 0b1100 ∧
    ((0x4C00 : Word).extractLsb' 12 4 = 0b0100 ∧ (0x4C00 : Word).extractLsb' 11 1 = 1) ∧
    ((0x41C0 : Word).extractLsb' 12 4 = 0b0100 ∧ (0x41C0 : Word).extractLsb' 11 1 = 0) := by decide

theorem wit_LoadStoreWordsDecode :
    ((0x2E3F : Word).extractLsb' 9 3 = Reg.r7.toBits ∧ (0x2E3F : Word).extractLsb' 6 3 = Reg.r0.toBits ∧
      (0x2E3F : Word).extractLsb' 0 9 = (0x03F : BitVec 9) ∧ (0x2E3F : Word).extractLsb' 0 6 = (0x3F : BitVec 6) ∧
      (0x2E3F : Word).extractLsb' 12 4 = 0b0010) ∧
    (0x3808 : Word).extractLsb' 12 4 = 0b0011 ∧ (0x6060 : Word).extractLsb' 12 4 = 0b0110 ∧
    (0x7641 : Word).extractLsb' 12 4 = 0b0111 ∧ (0xA807 : Word).extractLsb' 12 4 = 0b1010 ∧
    (0xB406 : Word).extractLsb' 12 4 = 0b1011 ∧ (0xE1FF : Word).extractLsb' 12 4 = 0b1110 := by decide

theorem wit_TrapWordsDecode :
    ((0xF11F : Word).extractLsb' 12 4 = 0b1111 ∧ (0xF11F : Word).extractLsb' 0 8 = (0x1F : BitVec 8) ∧
      (0x1F : BitVec 8).toNat < 0x20) ∧
    ((0xF026 : Word).extractLsb' 0 8 = (0x26 : BitVec 8) ∧ 0x25 < (0x26 : BitVec 8).toNat) ∧
    (0xF020 : Word).extractLsb' 0 8 = (0x20 : BitVec 8) ∧ (0xF025 : Word).extractLsb' 0 8 = (0x25 : BitVec 8) ∧
    ((0x8ABC : Word).extractLsb' 12 4 = 0b1000 ∧ (0x8ABC : Word).extractLsb' 0 12 = (0xABC : BitVec 12)) ∧
    (0xDFFF : Word).extractLsb' 12 4 = 0b1101 := by decide

/-- A state at each kind of fetch: a plain address, the status address, the data address without and with input. -/
theorem wit_StepRunsDecodedInstruction :
    (State.reset.run = .running ∧ State.reset.pc ≠ State.reset.cfg.kbsrAddr ∧
      State.reset.pc ≠ State.reset.cfg.kbdrAddr) ∧
    (at_ 0xFE00 .pos []).pc = (at_ 0xFE00 .pos []).cfg.kbsrAddr ∧
    ((at_ 0xFE02 .pos []).pc ≠ (at_ 0xFE02 .pos []).cfg.kbsrAddr ∧
      (at_ 0xFE02 .pos []).pc = (at_ 0xFE02 .pos []).cfg.kbdrAddr ∧ (at_ 0xFE02 .pos []).arrive.inq = []) ∧
    (typed (at_ 0xFE02 .pos []) [0x25, 0x26]).arrive.inq = 0x25 :: [0x26] := by decide

/-- A state about to run ADD R1, R1, #-1 (V5). -/
def add5 : State := at_ 0x3000 .zro [(0x3000, 0x127F)]

theorem wit_EncodedInstructionRuns :
    add5.run = .running ∧ ¬ add5.isDevice add5.pc ∧ (Instr.addImm .r1 .r1 0x1F).wellFormed = true ∧
    add5.cell add5.pc = encode (.addImm .r1 .r1 0x1F) := by decide

theorem wit_StepKeepsInvariant : add5.Inv ∧ ∃ t, step add5 = .next t := ⟨by decide, _, rfl⟩

theorem wit_ResetMeetsInvariant :
    Config.default.wf ∧ Config.wf { Config.default with kbsrAddr := 0xFFFF, kbdrAddr := 0x0000 } := by decide

theorem wit_EveryStepAnswers : add5.Inv := by decide

theorem wit_HaltedIsTerminal :
    State.run { add5 with run := .halted .halt } = .halted .halt ∧
    State.run { add5 with run := .halted (.invalidOpcode 0xD000) } = .halted (.invalidOpcode 0xD000) ∧
    HaltReason.invalidOpcode 0xD000 ≠ .halt := by decide

theorem wit_ThreeWaysToHalt :
    ((at_ 0x3006 .pos [(0x3006, 0xF025)]).run = .running ∧
      ∃ t, step (at_ 0x3006 .pos [(0x3006, 0xF025)]) = .next t ∧ t.run = .halted .halt) ∧
    (∃ t, step (at_ 0x3000 .zro [(0x3000, 0xD000)]) = .next t ∧ t.run = .halted (.invalidOpcode 0xD000)) ∧
    (∃ t, step (at_ 0x3000 .zro [(0x3000, 0xF0FF)]) = .next t ∧ t.run = .halted (.invalidTrapVector 0xFF)) ∧
    ∃ t, step add5 = .next t ∧ t.run = .running :=
  ⟨⟨rfl, _, rfl, rfl⟩, ⟨_, rfl, rfl⟩, ⟨_, rfl, rfl⟩, ⟨_, rfl, rfl⟩⟩

/-- At the last address an ADD and a BR not taken; and a GETC that waits. -/
theorem wit_PcIsIncrementedAndKept :
    (∃ u t, (at_ 0xFFFF .zro [(0xFFFF, 0x1021)]).arrive.fetch = some (0x1021, u) ∧
      step (at_ 0xFFFF .zro [(0xFFFF, 0x1021)]) = .next t ∧ t.pc = 0) ∧
    (∃ u t, (at_ 0xFFFF .neg [(0xFFFF, 0x07FF)]).arrive.fetch = some (0x07FF, u) ∧
      step (at_ 0xFFFF .neg [(0xFFFF, 0x07FF)]) = .next t ∧ decode 0x07FF = .br false true true 0x1FF ∧
      branchTaken false true true .neg = false ∧ t.pc = 0) ∧
    (∃ u t, (at_ 0x3000 .neg [(0x3000, 0xF020)]).arrive.fetch = some (0xF020, u) ∧
      step (at_ 0x3000 .neg [(0x3000, 0xF020)]) = .next t ∧ u.lacksInput (decode 0xF020) ∧ t.pc = 0x3000) :=
  ⟨⟨_, _, rfl, rfl, rfl⟩, ⟨_, _, rfl, rfl, rfl, rfl, rfl⟩, ⟨_, _, rfl, rfl, rfl, rfl⟩⟩

theorem wit_WaitingStepChangesNothing :
    ∃ u v, (at_ 0x3000 .zro [(0x3000, 0xF020)]).arrive.fetch = some (0xF020, u) ∧
      exec (decode 0xF020) u = .next v ∧ WaitsFrom u v := ⟨_, _, rfl, rfl, rfl⟩

theorem wit_StuckUntilInput :
    ((at_ 0x3000 .zro [(0x3000, 0xF020)]).run = .running ∧
      ¬ (at_ 0x3000 .zro [(0x3000, 0xF020)]).isDevice 0x3000 ∧
      (at_ 0x3000 .zro [(0x3000, 0xF020)]).cell 0x3000 = encode .getc ∧
      (at_ 0x3000 .zro [(0x3000, 0xF020)]).inq = [] ∧ (at_ 0x3000 .zro [(0x3000, 0xF020)]).arrivals = []) ∧
    (at_ 0x3000 .zro [(0x3000, 0xF023)]).cell 0x3000 = encode .inChar := by decide

theorem wit_StreamsMoveOneWay :
    ∃ t, step { at_ 0x3000 .zro [(0x3000, 0xF020)] with arrivals := [[0x61, 0x62]] } = .next t ∧ t.inq = [0x62] :=
  ⟨_, rfl, rfl⟩

theorem wit_CondFollowsResult :
    (∃ t, exec (.lea .r0 0x1FF) (at_ 0x0001 .pos []) = .next t ∧ t.cond = .zro) ∧
    (∃ t, exec .getc (other (typed add5 [0x62])) = .next t ∧ t.cond = .pos ∧ Instr.getc.readsChar) ∧
    (∃ t, exec (.st .r0 0) add5 = .next t ∧ (Instr.st .r0 0).flagReg = none ∧ ¬ (Instr.st .r0 0).readsChar) ∧
    (∃ t, exec .getc add5 = .next t ∧ add5.lacksInput .getc ∧ WaitsFrom add5 t) :=
  ⟨⟨_, rfl, rfl⟩, ⟨_, rfl, rfl, .inl rfl⟩, ⟨_, rfl, rfl, by unfold Instr.readsChar; decide⟩, ⟨_, rfl, rfl, rfl⟩⟩

theorem wit_CondReadOnlyByBr :
    (∀ n z p off, Instr.addImm .r1 .r1 0x1F ≠ .br n z p off) ∧ (∃ t, exec (.addImm .r1 .r1 0x1F) add5 = .next t) ∧
    ∃ t, exec (.jsr 0x400) add5 = .next t := ⟨by simp, ⟨_, rfl⟩, ⟨_, rfl⟩⟩

theorem wit_OnlyListedRegistersChange :
    (∃ t, exec (.jsr 0x400) add5 = .next t ∧ t.x .r7 = 0x3000) ∧ Reg.r0 ∉ (Instr.jsr 0x400).regsWritten :=
  ⟨⟨_, rfl, rfl⟩, by decide⟩

theorem wit_OnlyStoresChangeMemory :
    (∃ t, exec (.ld .r0 0) (typed (at_ 0xFE02 .zro []) [0x41]) = .next t ∧ t.cell 0xFE02 = 0x41) ∧
    (∀ r o, Instr.ld .r0 0 ≠ .st r o) ∧ (∀ r o, Instr.ld .r0 0 ≠ .sti r o) ∧
    ∀ r b o, Instr.ld .r0 0 ≠ .str r b o := ⟨⟨_, rfl, rfl⟩, by simp, by simp, by simp⟩

theorem wit_OnlyConsoleRoutinesWriteOutput :
    (∃ t, exec .getc (typed add5 [0x41]) = .next t) ∧ ¬ Instr.getc.writesOutput :=
  ⟨⟨_, rfl⟩, by unfold Instr.writesOutput; decide⟩

/-- Both reserved addresses, and two states that differ in a hidden cell and step. -/
theorem wit_ReservedWriteIsInvisible :
    (add5.isDevice 0xFE00 ∧ add5.isDevice 0xFE02) ∧ AgreeButHidden add5 (add5.memWrite 0xFE02 0x1234) ∧
    (add5.memWrite 0xFE02 0x1234).cell 0xFE02 ≠ add5.cell 0xFE02 ∧ ∃ t, step add5 = .next t := by
  refine ⟨by decide, ⟨rfl, rfl, rfl, rfl, rfl, rfl, rfl, rfl, fun a h => ?_⟩, by decide, _, rfl⟩
  exact (State.cell_setCell add5 0xFE02 0x1234 a).trans (if_neg fun e => h (.inr e))

theorem wit_CanonicalMemoryIsUnique :
    Memory.wf 0 [(0, 1), (65535, 2)] ∧
    ∀ a, Memory.get 0 [(0, 1), (65535, 2)] a = Memory.get 0 [(0, 1), (65535, 2)] a := ⟨by decide, fun _ => rfl⟩

/-- The widths at both ends of the range: 1 and 16. -/
theorem wit_SignExtensionValue : (1 ≤ 1 ∧ 1 ≤ 16 ∧ 1 ≤ 16 ∧ 16 ≤ 16) ∧ sext (0x10 : BitVec 5) = 0xFFF0 := by decide

theorem wit_BranchRule :
    (true = true ∧ (at_ 0 .neg []).cond = .neg) ∧ (true = true ∧ (at_ 0 .zro []).cond = .zro) ∧
    (true = true ∧ (at_ 0 .pos []).cond = .pos) ∧
    ¬ ((true = true ∧ (at_ 0 .zro []).cond = .neg) ∨ (false = true ∧ (at_ 0 .zro []).cond = .zro) ∨
      (true = true ∧ (at_ 0 .zro []).cond = .pos)) := by decide

theorem wit_JumpAndLink : Reg.r6 ≠ .r7 ∧ Reg.r7 = .r7 := by decide

/-- One state for each of the seven PC-relative instructions, at the last address, with the operand address 0x00FF. -/
theorem wit_PcRelativeBase :
    (∀ w : Word, (at_ 0xFFFF .zro [(0xFFFF, w)]).run = .running ∧ ¬ (at_ 0xFFFF .zro [(0xFFFF, w)]).isDevice 0xFFFF) ∧
    ((at_ 0xFFFF .zro [(0xFFFF, 0x04FF)]).cell 0xFFFF = encode (.br false true false 0x0FF) ∧
      branchTaken false true false .zro = true) ∧
    (at_ 0xFFFF .zro [(0xFFFF, 0x48FF)]).cell 0xFFFF = encode (.jsr 0x0FF) ∧
    ((at_ 0xFFFF .zro [(0xFFFF, 0x20FF)]).cell 0xFFFF = encode (.ld .r0 0x0FF) ∧
      ¬ ((at_ 0xFFFF .zro [(0xFFFF, 0x20FF)]).arrive.setPc 0x0000).inputMissing 0x00FF) ∧
    (at_ 0xFFFF .zro [(0xFFFF, 0xA0FF)]).cell 0xFFFF = encode (.ldi .r0 0x0FF) ∧
    (at_ 0xFFFF .zro [(0xFFFF, 0xE0FF)]).cell 0xFFFF = encode (.lea .r0 0x0FF) ∧
    (at_ 0xFFFF .zro [(0xFFFF, 0x30FF)]).cell 0xFFFF = encode (.st .r0 0x0FF) ∧
    (at_ 0xFFFF .zro [(0xFFFF, 0xB0FF)]).cell 0xFFFF = encode (.sti .r0 0x0FF) :=
  ⟨fun _ => ⟨rfl, by simp [at_, State.reset, State.resetWith, Config.default]⟩, by decide⟩

/-- A plain address, and the data address with input. -/
theorem wit_LoadResult :
    ¬ add5.inputMissing (add5.pc + (0x0FF : BitVec 9).signExtend 16) ∧
    ¬ (typed (at_ 0xFE02 .zro []) [0x41]).inputMissing (0xFE02 + (0 : BitVec 9).signExtend 16) ∧
    ¬ add5.inputMissing (add5.x .r1 + (0x20 : BitVec 6).signExtend 16) := by decide

/-- The pointer read answers the status Word of an empty queue, 0x0000, and the datum is then in a plain cell. -/
theorem wit_LoadIndirectResult :
    ¬ (at_ 0xFE00 .zro []).inputMissing (0xFE00 + (0 : BitVec 9).signExtend 16) ∧
    ¬ (at_ 0xFE00 .zro []).inputMissing 0x0000 := by decide

/-- The data address without input, reached directly, through a base register, and through a pointer. -/
theorem wit_MemoryInstructionsWait :
    (at_ 0xFE02 .zro []).cfg.wf ∧ (at_ 0xFE02 .zro []).inputMissing (0xFE02 + (0 : BitVec 9).signExtend 16) ∧
    ((at_ 0x3000 .zro []).setX .r1 0xFE03).inputMissing
      (((at_ 0x3000 .zro []).setX .r1 0xFE03).x .r1 + (0x3F : BitVec 6).signExtend 16) ∧
    (ReadAnswers (at_ 0x3000 .zro [(0x3000, 0xFE02)]) (0x3000 + (0 : BitVec 9).signExtend 16) 0xFE02
        (at_ 0x3000 .zro [(0x3000, 0xFE02)]) ∧
      (at_ 0x3000 .zro [(0x3000, 0xFE02)]).inputMissing 0xFE02) :=
  ⟨by decide, by decide, by decide, .inr (.inr ⟨by decide, by decide, by decide, rfl⟩), by decide⟩

theorem wit_StoreIndirectResult : ¬ add5.inputMissing (add5.pc + (6 : BitVec 9).signExtend 16) := by decide

/-- ST R0, #0 just below the device area: the cell stored to is the last plain one before 0xFE00. -/
theorem wit_StoreSeenByNextFetch :
    (at_ 0xFDFE .zro [(0xFDFE, 0x3000)]).run = .running ∧ ¬ (at_ 0xFDFE .zro [(0xFDFE, 0x3000)]).isDevice 0xFDFE ∧
    ¬ (at_ 0xFDFE .zro [(0xFDFE, 0x3000)]).isDevice (0xFDFE + 1) ∧
    (at_ 0xFDFE .zro [(0xFDFE, 0x3000)]).cell 0xFDFE = encode (.st .r0 0) := by decide

/-- S4 with A = 0x3010, B = 0x3020. -/
theorem wit_LdiRoundTrip :
    ((0x3010 : Word) = (at_ 0x3002 .zro []).pc + (14 : BitVec 9).signExtend 16 ∧
      (0x3020 : Word) = ((at_ 0x3002 .zro []).setX .r1 0x3020).x .r1 ∧
      (0x3020 : Word) = 0x3004 + (28 : BitVec 9).signExtend 16 ∧
      (0x3010 : Word) = 0x3005 + (11 : BitVec 9).signExtend 16 ∧ (0x3010 : Word) ≠ 0x3020 ∧
      ¬ (at_ 0x3002 .zro []).isDevice 0x3010 ∧ ¬ (at_ 0x3002 .zro []).isDevice 0x3020) ∧
    ∃ s1 s2, exec (.st .r1 14) ((at_ 0x3002 .zro []).setX .r1 0x3020) = .next s1 ∧
      exec (.st .r2 28) (s1.setPc 0x3004) = .next s2 := ⟨by decide, _, _, rfl, rfl⟩

theorem wit_GetcResult :
    (typed add5 [0x80, 0x00]).inq = 0x80 :: [0x00] ∧ (typed add5 [0x80]).cfg.trapInputSetsFlags = false ∧
    (other (typed add5 [0x80])).cfg.trapInputSetsFlags = true := by decide

theorem wit_InResult : (other (typed add5 [0x00])).inq = 0x00 :: [] ∧
    (other (typed add5 [0x00])).cfg.trapInputSetsFlags = true := by decide

theorem wit_InputRoutinesWait :
    add5.inq = [] ∧ Instr.getc.readsChar ∧ Instr.inChar.readsChar ∧ (Instr.trap 0x20).readsChar ∧
    (Instr.trap 0x23).readsChar := by unfold Instr.readsChar; decide

theorem wit_OutResult : Instr.out = .out ∧ Instr.trap 0x21 = .trap 0x21 := by decide

/-- V76, across the top of memory: 0xFFFF, 0x0000, 0x0001, then the zero Word at 0x0002. -/
theorem wit_PutsWritesString :
    (∀ w ∈ ([0x41, 0x4100, 0x42] : List Word), w ≠ 0) ∧
    ((at_ 0x3000 .zro [(0x0000, 0x4100), (0x0001, 0x42), (0xFFFF, 0x41)]).setX .r0 0xFFFF).holds 0xFFFF
      ([0x41, 0x4100, 0x42] ++ [0]) :=
  ⟨by simp, by simp only [List.cons_append, List.nil_append, State.holds]; decide⟩

/-- V80. -/
theorem wit_PutspWritesPackedString :
    (∀ c ∈ ([0x48, 0x65, 0x6C] : List Byte), c ≠ 0) ∧
    ((at_ 0x3000 .zro [(0x4000, 0x6548), (0x4001, 0x006C)]).setX .r0 0x4000).holds 0x4000
      (packChars [0x48, 0x65, 0x6C] ++ [0]) :=
  ⟨by simp, by simp only [packChars, List.cons_append, List.nil_append, State.holds]; decide⟩

/-- V83 (a Word with a zero high byte), V85 (a zero low byte) and V84, V86 under the other setting. -/
theorem wit_PutspOnAnyString :
    ((at_ 0x3000 .zro []).cfg.putspStop = .zeroByte ∧
      (∀ v ∈ ([0x6548] : List Word), v.extractLsb' 0 8 ≠ 0 ∧ v.extractLsb' 8 8 ≠ 0) ∧
      (0x0048 : Word).extractLsb' 8 8 = 0 ∧ (0x4100 : Word).extractLsb' 0 8 = 0 ∧
      ((at_ 0x3000 .zro [(0x4000, 0x6548), (0x4001, 0x0048)]).setX .r0 0x4000).holds 0x4000 ([0x6548] ++ [0x0048]) ∧
      ((at_ 0x3000 .zro [(0x4000, 0x4100)]).setX .r0 0x4000).holds 0x4000 ([] ++ [0x4100])) ∧
    ((other (at_ 0x3000 .zro [])).cfg.putspStop = .zeroWord ∧ (∀ v ∈ ([0x0048, 0x4100] : List Word), v ≠ 0) ∧
      ((other (at_ 0x3000 .zro [(0x4000, 0x48), (0x4001, 0x4100)])).setX .r0 0x4000).holds 0x4000
        ([0x0048, 0x4100] ++ [0])) := by
  simp only [List.cons_append, List.nil_append, State.holds]
  refine ⟨⟨by decide, by simp, by decide, by decide, by decide, by decide⟩, by decide, by simp, by decide⟩

/-- A loop that exits at its first Word, and one that comes to the data address with no input. -/
theorem wit_StringRoutinesAreTheLoops :
    add5.cfg.wf ∧ (∃ u, StringEnds putsBytes (add5.x .r0) (add5.setX .r7 add5.pc) u) ∧
    StringWaits putsBytes ((add5.setX .r0 0xFE02).x .r0) ((add5.setX .r0 0xFE02).setX .r7 add5.pc) ∧
    (∃ u, StringEnds (putspBytes .zeroWord) (add5.x .r0) (add5.setX .r7 add5.pc) u) ∧
    StringWaits (putspBytes .zeroByte) ((add5.setX .r0 0xFE02).x .r0) ((add5.setX .r0 0xFE02).setX .r7 add5.pc) :=
  ⟨by decide, ⟨_, .stop (State.memRead_plain (by decide) (by decide)) (by decide)⟩,
    .here (State.memRead_data_nil (by decide) (by decide) (by decide)),
    ⟨_, .stop (State.memRead_plain (by decide) (by decide)) (by decide)⟩,
    .here (State.memRead_data_nil (by decide) (by decide) (by decide))⟩

theorem wit_InvalidVectorHalts : (0x1F : BitVec 8).toNat < 0x20 ∧ 0x25 < (0x26 : BitVec 8).toNat := by decide

theorem wit_InvalidOpcodeHalts :
    (0x8ABC : Word).extractLsb' 12 4 = 0b1000 ∧ (0xDFFF : Word).extractLsb' 12 4 = 0b1101 := by decide

/-- The last cell: one Word fits, two do not. -/
theorem wit_LoadPlacesImage :
    (0xFFFF : Word).toNat + [(7 : Word)].length ≤ 65536 ∧ 65536 < (0xFFFF : Word).toNat + [(7 : Word), 8].length ∧
    [(7 : Word)].length ≤ ((0xFFFE : Word) - 0xFFFF).toNat := by decide

theorem wit_BootLoadsInOrder :
    (∃ t, add5.boot ([⟨0x3000, [1, 2]⟩] ++ [⟨0xFFFF, [3]⟩]) = .ok t) ∧ (∃ t, add5.boot ([] ++ [⟨0x3000, [1]⟩]) = .ok t) ∧
    (∀ img ∈ ([⟨0x3000, [1, 2]⟩, ⟨0xFFFF, [3]⟩] : List Image), img.base.toNat + img.words.length ≤ 65536) ∧
    add5.cfg.wf := ⟨⟨_, rfl⟩, ⟨_, rfl⟩, by simp, by decide⟩

theorem wit_RefusedImageStopsBoot :
    65536 < (Image.mk 0xFFFF [1, 2]).base.toNat + (Image.mk 0xFFFF [1, 2]).words.length ∧
    ∃ t, add5.boot [⟨0x3000, [1]⟩] = .ok t := ⟨by decide, _, rfl⟩

end Sys2Proof.Tests
end

section
/-! PROOF. R28: no instruction but BR reads COND. Every operation an instruction runs either carries COND along unread
or writes it from a value that does not depend on it, so the two runs end alike, or alike but for a COND neither of them
wrote. -/

namespace Sys2Proof.Machine

/-- `s` with COND holding `c`. -/
def State.withCond (s : State) (c : Cond) : State := { s with cond := c }

/-- `y` is the end that `x` becomes when COND holds `c` at the start where it held `k`: the same end, or one that
differs in COND alone, which then still holds what it held at the start. `f` makes an end of a state: `Host.Outcome.next` of an
instruction, `Routine.done` of a trap routine. -/
inductive CondUnread {α : Type} (f : State → α) (k c : Cond) : α → α → Prop where
  | same (x : α) : CondUnread f k c x x
  | carried (t : State) (h : t.cond = k) : CondUnread f k c (f t) (f (t.withCond c))

/-! The shared operations. -/

/-- R44: a read answers the same Word whatever COND holds, and carries COND along. -/
theorem State.memRead_withCond (s : State) (c : Cond) (a : Word) :
    (s.withCond c).memRead a = (s.memRead a).map fun p => (p.1, p.2.withCond c) := by
  obtain ⟨hs, e⟩ | ⟨hs, hd, hq, e⟩ | ⟨hs, hd, b, rest, hq, e⟩ | ⟨hs, hd, e⟩ := s.memRead_cases a <;> rw [e]
  · exact State.memRead_status hs
  · exact State.memRead_data_nil hs hd hq
  · exact State.memRead_data_cons hs hd hq
  · exact State.memRead_plain hs hd

/-- An instruction that goes on with a read (in the state `u`, reached from `s` with COND unwritten) ends without having
read COND if what it goes on with does. -/
theorem State.afterRead_condUnread {s u : State} {c : Cond} {a : Word}
    {k k' : Word → State → Host.Outcome State Fault Refusal} (hu : u.cond = s.cond)
    (hk : ∀ w v, v.cond = s.cond → CondUnread .next s.cond c (k w v) (k' w (v.withCond c))) :
    CondUnread .next s.cond c (s.afterRead (u.memRead a) k)
      ((s.withCond c).afterRead ((u.withCond c).memRead a) k') := by
  rw [State.memRead_withCond]
  cases hr : u.memRead a with
  | none => exact .carried _ rfl
  | some p =>
    obtain ⟨w, v⟩ := p
    obtain ⟨-, -, hcond, -⟩ := State.memRead_frame hr
    exact hk w v (hcond.trans hu)

/-! The trap routines. -/

/-- R170: a TRAP whose routine ends without having read COND does so too, its wait included. -/
theorem State.finish_condUnread {s : State} {c : Cond} {r r' : Routine} (h : CondUnread .done s.cond c r r') :
    CondUnread .next s.cond c (s.finish r) ((s.withCond c).finish r') := by
  cases h with
  | carried t ht => exact .carried t ht
  | same =>
    cases r with
    | done t => exact .same _
    | waits => exact .carried _ rfl
    | neverEnds => exact .same _

/-- R171, R174: the input routines write COND from the byte, or not at all. -/
theorem inputRoutine_condUnread (s : State) (c : Cond) (echo : Bool) :
    CondUnread .done s.cond c (inputRoutine s echo) (inputRoutine (s.withCond c) echo) := by
  cases hq : s.inq with
  | nil =>
    rw [inputRoutine_waits hq, inputRoutine_waits (s := s.withCond c) hq]
    exact .same _
  | cons b rest =>
    rw [inputRoutine_done echo hq, inputRoutine_done (s := s.withCond c) echo hq, State.inputToR0_eq,
      State.inputToR0_eq]
    cases hf : s.cfg.trapInputSetsFlags with
    | true => simpa [State.withCond, hf] using .same _
    | false => simpa [State.withCond, hf] using .carried _ rfl

/-- R173, R175: the string loop carries COND along through its reads and its output. -/
theorem stringLoop_condUnread (bytes : Word → List Byte × Bool) (n : Nat) (a : Word) (s : State) (c : Cond) :
    CondUnread .done s.cond c (stringLoop bytes n a s) (stringLoop bytes n a (s.withCond c)) := by
  induction n generalizing a s with
  | zero => exact .same _
  | succ n ih =>
    have hr' := s.memRead_withCond c a
    cases hr : s.memRead a with
    | none =>
      rw [hr] at hr'
      rw [stringLoop_waits hr, stringLoop_waits hr']
      exact .same _
    | some p =>
      obtain ⟨w, t⟩ := p
      rw [hr] at hr'
      obtain ⟨-, -, hcond, -⟩ := State.memRead_frame hr
      cases hw : (bytes w).2 with
      | false =>
        rw [stringLoop_stop hr hw, stringLoop_stop hr' hw]
        exact .carried _ hcond
      | true =>
        rw [stringLoop_more hr hw, stringLoop_more hr' hw, ← hcond]
        exact ih (a + 1) { t with out := t.out ++ (bytes w).1 }

/-- R170: no routine the Trap Dispatcher selects reads COND. -/
theorem trapRoutine_condUnread (s : State) (c : Cond) (v : BitVec 8) :
    CondUnread .done s.cond c (trapRoutine s v) (trapRoutine (s.withCond c) v) := by
  unfold trapRoutine
  split_ifs
  · exact inputRoutine_condUnread s c false
  · exact .carried _ rfl
  · exact stringLoop_condUnread putsBytes _ _ s c
  · simp only [inRoutine, State.writeOutputChars_eq]
    exact inputRoutine_condUnread { s with out := s.out ++ s.cfg.inPrompt } c true
  · exact stringLoop_condUnread (putspBytes s.cfg.putspStop) _ _ s c
  · exact .carried _ rfl
  · exact .carried _ rfl

/-! The instructions. -/

theorem exec_trap_condUnread (v : BitVec 8) (s : State) (c : Cond) :
    CondUnread .next s.cond c (exec (.trap v) s) (exec (.trap v) (s.withCond c)) :=
  State.finish_condUnread (s := s) (trapRoutine_condUnread s.enterTrap c v)

/-- R28, for every end of an instruction, its faults included. -/
theorem exec_condUnread {i : Instr} (hi : ∀ n z p off, i ≠ .br n z p off) (s : State) (c : Cond) :
    CondUnread .next s.cond c (exec i s) (exec i (s.withCond c)) := by
  cases i with
  | br n z p off => exact absurd rfl (hi n z p off)
  | addReg | addImm | andReg | andImm | not | lea => exact .same _
  | st | str | jsr | jsrr | jmp | rti | res => exact .carried _ rfl
  | ld | ldr => exact State.afterRead_condUnread rfl fun _ _ _ => .same _
  | ldi => exact State.afterRead_condUnread rfl fun _ _ hu => State.afterRead_condUnread hu fun _ _ _ => .same _
  | sti => exact State.afterRead_condUnread rfl fun _ _ hu => .carried _ hu
  | trap v => exact exec_trap_condUnread v s c
  | getc => exact exec_trap_condUnread 0x20 s c
  | out => exact exec_trap_condUnread 0x21 s c
  | puts => exact exec_trap_condUnread 0x22 s c
  | inChar => exact exec_trap_condUnread 0x23 s c
  | putsp => exact exec_trap_condUnread 0x24 s c
  | halt => exact exec_trap_condUnread 0x25 s c

/-- Settles O22, by the two ends `CondUnread` allows: COND written alike, or left as it was. -/
theorem condReadOnlyByBr : Obligations.CondReadOnlyByBr := by
  intro i s t c hi h
  have hu := exec_condUnread hi s c
  rw [h] at hu
  generalize he : exec i (s.withCond c) = o at hu
  cases hu with
  | same => exact ⟨t, he, rfl, .inl rfl⟩
  | carried _ hcond => exact ⟨t.withCond c, he, rfl, .inr ⟨rfl, hcond⟩⟩

end Sys2Proof.Machine
end

section
/-! PROOF. R172: OUT is R7 written and one byte appended to the output. -/

namespace Sys2Proof.Machine

/-- R170: a trap routine that only appends bytes to the output leaves all else as the TRAP found it, but for R7. -/
theorem State.enterTrap_writeOutputChars_only (s : State) (bs : List Byte) :
    WritesOutputOnly bs s (s.enterTrap.writeOutputChars bs) := by
  rw [State.writeOutputChars_eq]
  refine ⟨rfl, State.x_setX s .r7 .r7 s.pc, ?_, rfl, rfl, fun _ _ => rfl, rfl, rfl, rfl, rfl⟩
  intro r hr
  exact (State.x_setX s .r7 r s.pc).trans (if_neg (by simpa using hr))

/-- R172: the byte is that of the R0 the TRAP found, since entering the routine writes R7 alone. -/
theorem exec_out_next (s : State) :
    exec .out s = .next (s.enterTrap.writeOutputChars [(s.x .r0).extractLsb' 0 8]) := by
  have hr0 : s.enterTrap.x .r0 = s.x .r0 := State.x_setX s .r7 .r0 s.pc
  rw [← hr0]
  rfl

/-- Settles O47: TRAP 0x21 is OUT, OUT writes its byte as the only output, and that byte is R0 modulo 256. -/
theorem outResult : Obligations.OutResult := by
  intro i s hi
  have hexec : exec i s = exec .out s := by
    obtain rfl | rfl := hi
    · rfl
    · exact (exec_out s).symm
  obtain ⟨hout, hframe⟩ := s.enterTrap_writeOutputChars_only [(s.x .r0).extractLsb' 0 8]
  have hbyte : ((s.x .r0).extractLsb' 0 8).toNat = (s.x .r0).toNat % 256 := by
    simp [BitVec.extractLsb'_toNat]
  exact ⟨_, _, hexec.trans (exec_out_next s), hout, hbyte, hframe⟩

end Sys2Proof.Machine
end

section
/-! PROOF. R206: HALTED is terminal, and the outcome is read off its reason. -/

namespace Sys2Proof.Machine

/-- R206: of the reasons only `Halt` is a success. -/
theorem State.outcome_halted {s : State} {r : HaltReason} (h : s.run = .halted r) :
    s.outcome = some (if r = .halt then .success else .failure r) := by
  cases r <;> simp [State.outcome, h]

/-- Settles O15: a step of a HALTED core is the state itself, so any number of steps is. -/
theorem haltedIsTerminal : Obligations.HaltedIsTerminal := by
  intro s r h
  have hout := State.outcome_halted h
  refine ⟨run_of_step_self (step_halted h), ?_, ?_, rfl⟩
  · intro hr
    rwa [if_pos hr] at hout
  · intro hr
    rwa [if_neg hr] at hout

end Sys2Proof.Machine
end

section
/-! PROOF. R205: three kinds of instruction halt the core, each with its reason, and no other does. `Instr.haltReason`
says which they are, and `exec_run_eq` that it gives the run state after any instruction; for RTI and RES the Word
recorded is the Word fetched, since the decoder keeps its opcode and its low twelve bits. -/

namespace Sys2Proof
open Machine Encoding

/-! The decoder: its terms are well formed, and the opcode stays. -/

theorem decode_wellFormed (ir : Word) : (decode ir).wellFormed = true := by
  simp only [decode, apply_ite Instr.wellFormed, decodeTrap_wellFormed]
  simp only [Instr.wellFormed, ite_self]

/-- R79: whatever its vector, a TRAP has the opcode of TRAP. -/
theorem fieldOpcode_encode_decodeTrap (v : BitVec 8) : fieldOpcode (encode (decodeTrap v)) = opTrap := by
  simp only [decodeTrap, apply_ite encode, apply_ite fieldOpcode]
  simp only [encode, fieldOpcode_encodeFormatJ, ite_self]

/-- R71: the instruction a Word decodes to has the Word's opcode. -/
theorem fieldOpcode_encode_decode (ir : Word) : fieldOpcode (encode (decode ir)) = fieldOpcode ir := by
  simp only [decode, apply_ite encode, apply_ite fieldOpcode, fieldOpcode_encode_decodeTrap]
  simp only [encode, fieldOpcode_encodeFormatA, fieldOpcode_encodeFormatB, fieldOpcode_encodeFormatC,
    fieldOpcode_encodeFormatD, fieldOpcode_encodeFormatE, fieldOpcode_encodeFormatF, fieldOpcode_encodeFormatG,
    fieldOpcode_encodeFormatH, fieldOpcode_encodeFormatI, fieldOpcode_encodeFormatK, ite_self]
  -- What is left is the decoder's chain of tests, each branch answering the opcode it tested for, over sixteen opcodes.
  generalize fieldOpcode ir = op
  revert op
  decide

/-- R71, R178: a Word is its opcode and its low twelve bits. -/
theorem eq_of_fieldOpcode_of_fieldLow12 {ir : Word} {op : BitVec 4} {low : BitVec 12} (hop : fieldOpcode ir = op)
    (hlow : fieldLow12 ir = low) : op ++ low = ir := by
  subst hop hlow
  calc fieldOpcode ir ++ fieldLow12 ir = ir.extractLsb' 0 (4 + 12) :=
        BitVec.extractLsb'_append_extractLsb'_eq_extractLsb' (start₂ := 12) (start₁ := 0) (len₁ := 12) rfl
    _ = ir := BitVec.extractLsb'_eq_self

/-- R178: the Word RTI records is the Word that decodes to it. -/
theorem eq_of_decode_rti {ir : Word} {low : BitVec 12} (h : decode ir = .rti low) : 0b1000#4 ++ low = ir := by
  have hop : fieldOpcode ir = 0b1000#4 := by
    rw [← fieldOpcode_encode_decode, h]
    exact fieldOpcode_encodeFormatK _ _
  exact eq_of_fieldOpcode_of_fieldLow12 hop (by simpa [decode, hop] using h)

/-- R179: the Word RES records is the Word that decodes to it. -/
theorem eq_of_decode_res {ir : Word} {low : BitVec 12} (h : decode ir = .res low) : 0b1101#4 ++ low = ir := by
  have hop : fieldOpcode ir = 0b1101#4 := by
    rw [← fieldOpcode_encode_decode, h]
    exact fieldOpcode_encodeFormatK _ _
  exact eq_of_fieldOpcode_of_fieldLow12 hop (by simpa [decode, hop] using h)

/-! The reason an instruction halts with. -/

/-- R205: the reason with which an instruction halts the core: none for one that leaves it RUNNING. -/
def Instr.haltReason : Instr → Option HaltReason
  | .halt => some .halt
  | .rti low => some (.invalidOpcode (0b1000#4 ++ low))
  | .res low => some (.invalidOpcode (0b1101#4 ++ low))
  | .trap v => some (.invalidTrapVector v)
  | _ => none

/-- R205: for a Word decoded, the reasons are the three of the rule. -/
theorem haltReason_decode_eq_some_iff {ir : Word} {r : HaltReason} :
    (decode ir).haltReason = some r ↔
      (r = .halt ∧ decode ir = .halt) ∨
      (r = .invalidOpcode ir ∧ ∃ low, decode ir = .rti low ∨ decode ir = .res low) ∨
      (∃ v, r = .invalidTrapVector v ∧ decode ir = .trap v) := by
  cases h : decode ir with
  | halt | trap => simp [Instr.haltReason, eq_comm]
  | rti low => simp [Instr.haltReason, eq_of_decode_rti h, eq_comm]
  | res low => simp [Instr.haltReason, eq_of_decode_res h, eq_comm]
  | br | addReg | addImm | ld | st | jsr | jsrr | andReg | andImm | ldr | str | not | ldi | sti | jmp | lea | getc
    | out | puts | inChar | putsp => simp [Instr.haltReason]

end Sys2Proof

namespace Sys2Proof.Machine

/-- R207: an instruction that can wait is none of those that halt. -/
theorem haltReason_of_lacksInput {i : Instr} {s : State} (hwf : i.wellFormed = true) (h : s.lacksInput i) :
    i.haltReason = none := by
  cases i with
  | halt | rti | res => exact h.elim
  | trap v =>
    obtain ⟨rfl | rfl, -⟩ | ⟨rfl, -⟩ | ⟨rfl, -⟩ := h <;> exact absurd hwf (by decide)
  | br | addReg | addImm | ld | st | jsr | jsrr | andReg | andImm | ldr | str | not | ldi | sti | jmp | lea | getc
    | out | puts | inChar | putsp => rfl

/-- R170, R177: how a trap routine that ends leaves the run state. -/
theorem RoutineCompletes.run_eq {v : BitVec 8} {s t : State} (h : RoutineCompletes v s t) :
    (v ∈ routineVectors → v ≠ 0x25 → t.run = s.run) ∧ (v = 0x25 → t.run = .halted .halt) ∧
      (v ∉ routineVectors → t.run = .halted (.invalidTrapVector v)) := by
  obtain ⟨-, -, -, -, -, -, -, -, -, hhalt, hinvalid, hkept, -⟩ := routine_frame h
  exact ⟨hkept, hhalt, hinvalid⟩

/-- R205: an instruction that completes in a RUNNING core halts it with its reason, or leaves it RUNNING. -/
theorem Completes.run_eq {i : Instr} {s t : State} (hwf : i.wellFormed = true) (hrun : s.run = .running)
    (h : Completes i s t) : t.run = i.haltReason.elim .running .halted := by
  cases i with
  | halt =>
    obtain ⟨-, hhalt, -⟩ := RoutineCompletes.run_eq h
    exact hhalt rfl
  | trap v =>
    obtain ⟨-, -, hinvalid⟩ := RoutineCompletes.run_eq h
    exact hinvalid (by simpa [Instr.wellFormed] using hwf)
  | getc | out | puts | inChar | putsp =>
    obtain ⟨hkept, -, -⟩ := RoutineCompletes.run_eq h
    exact (hkept (by decide) (by decide)).trans hrun
  | rti | res => exact congrArg State.run h
  | br | addReg | addImm | ld | st | jsr | jsrr | andReg | andImm | ldr | str | not | ldi | sti | jmp | lea =>
    obtain ⟨-, -, -, -, -, hkept, -⟩ := plain_frame rfl h
    exact (hkept (by simp) (by simp)).trans hrun

/-- R205: the run state after an instruction of a RUNNING core, its wait included. -/
theorem exec_run_eq {i : Instr} {s t : State} (hwf : i.wellFormed = true) (hrun : s.run = .running)
    (h : exec i s = .next t) : t.run = i.haltReason.elim .running .halted := by
  obtain ⟨rfl, hl⟩ | hc := exec_cases h
  · rw [haltReason_of_lacksInput hwf hl]
    exact hrun
  · exact hc.run_eq hwf hrun

theorem exec_halted_iff {i : Instr} {s t : State} {r : HaltReason} (hwf : i.wellFormed = true)
    (hrun : s.run = .running) (h : exec i s = .next t) : t.run = .halted r ↔ i.haltReason = some r := by
  rw [exec_run_eq hwf hrun h]
  cases i.haltReason <;> simp

theorem State.fetch_run {s u : State} {ir : Word} (h : s.fetch = some (ir, u)) : u.run = s.run := by
  obtain ⟨v, hread, rfl⟩ := State.fetch_some h
  obtain ⟨-, -, -, hrun, -⟩ := State.memRead_frame hread
  exact hrun

/-- Settles O16: a fetch that waits halts nothing, and the Word fetched halts with the reason of its instruction. -/
theorem threeWaysToHalt : Obligations.ThreeWaysToHalt := by
  intro s t r hs h
  cases hf : s.arrive.fetch with
  | none =>
    rw [step_of_no_fetch hs hf] at h
    cases h
    simp [hs]
  | some p =>
    obtain ⟨ir, u⟩ := p
    rw [step_of_fetch hs hf] at h
    have hu : u.run = .running := (State.fetch_run hf).trans (s.arrive_run.trans hs)
    rw [exec_halted_iff (decode_wellFormed ir) hu h, haltReason_decode_eq_some_iff]
    constructor
    · exact fun hr => ⟨ir, u, rfl, hr⟩
    · rintro ⟨_, _, hp, hr⟩
      cases hp
      exact hr

end Sys2Proof.Machine
end

section
/-! PROOF. R71 to R82: what the decoder answers for each of the sixteen opcodes, said once; the encoder's inverse, the
reading of every Word and the bits that are ignored follow from it. -/

namespace Sys2Proof
open Encoding

/-! The decoder, opcode by opcode. -/

variable {w : Word}

theorem decode_opBr (h : fieldOpcode w = opBr) :
    decode w = .br (w.getLsbD nBit) (w.getLsbD zBit) (w.getLsbD pBit) (fieldOffset9 w) := by simp [decode, h]

theorem decode_opAdd (h : fieldOpcode w = opAdd) :
    decode w = if w.getLsbD immFlagBit then .addImm (fieldHigh w) (fieldMid w) (fieldImm5 w)
      else .addReg (fieldHigh w) (fieldMid w) (fieldLow w) := by simp [decode, h]

theorem decode_opLd (h : fieldOpcode w = opLd) : decode w = .ld (fieldHigh w) (fieldOffset9 w) := by simp [decode, h]

theorem decode_opSt (h : fieldOpcode w = opSt) : decode w = .st (fieldHigh w) (fieldOffset9 w) := by simp [decode, h]

theorem decode_opJsr (h : fieldOpcode w = opJsr) :
    decode w = if w.getLsbD longFlagBit then .jsr (fieldOffset11 w) else .jsrr (fieldMid w) := by simp [decode, h]

theorem decode_opAnd (h : fieldOpcode w = opAnd) :
    decode w = if w.getLsbD immFlagBit then .andImm (fieldHigh w) (fieldMid w) (fieldImm5 w)
      else .andReg (fieldHigh w) (fieldMid w) (fieldLow w) := by simp [decode, h]

theorem decode_opLdr (h : fieldOpcode w = opLdr) : decode w = .ldr (fieldHigh w) (fieldMid w) (fieldOffset6 w) := by
  simp [decode, h]

theorem decode_opStr (h : fieldOpcode w = opStr) : decode w = .str (fieldHigh w) (fieldMid w) (fieldOffset6 w) := by
  simp [decode, h]

theorem decode_opRti (h : fieldOpcode w = opRti) : decode w = .rti (fieldLow12 w) := by simp [decode, h]

theorem decode_opNot (h : fieldOpcode w = opNot) : decode w = .not (fieldHigh w) (fieldMid w) := by simp [decode, h]

theorem decode_opLdi (h : fieldOpcode w = opLdi) : decode w = .ldi (fieldHigh w) (fieldOffset9 w) := by
  simp [decode, h]

theorem decode_opSti (h : fieldOpcode w = opSti) : decode w = .sti (fieldHigh w) (fieldOffset9 w) := by
  simp [decode, h]

theorem decode_opJmp (h : fieldOpcode w = opJmp) : decode w = .jmp (fieldMid w) := by simp [decode, h]

theorem decode_opRes (h : fieldOpcode w = opRes) : decode w = .res (fieldLow12 w) := by simp [decode, h]

theorem decode_opLea (h : fieldOpcode w = opLea) : decode w = .lea (fieldHigh w) (fieldOffset9 w) := by
  simp [decode, h]

theorem decode_opTrap (h : fieldOpcode w = opTrap) : decode w = decodeTrap (fieldTrapvect8 w) := by simp [decode, h]

/-! The fields of a Word built from placed fields. -/

variable {n n' lo lo' : Nat}

theorem place_getElem (v : BitVec n) (i : Nat) (h : i < 16) :
    (place lo v)[i] = (decide (lo ≤ i) && v.getLsbD (i - lo)) := by
  rw [← BitVec.getLsbD_eq_getElem, place_getLsbD]
  simp [h]

/-- R73: a field placed in a Word is read back from its place. -/
@[simp] theorem extractLsb'_place_same (h : lo + n ≤ 16) (v : BitVec n) : (place lo v).extractLsb' lo n = v := by
  refine BitVec.eq_of_getLsbD_eq fun k hk => ?_
  simp [place_getElem, hk, show lo + k < 16 by omega]

/-- R73: fields that do not overlap do not see each other. -/
@[simp] theorem extractLsb'_place_disjoint (h : lo + n ≤ lo' ∨ lo' + n' ≤ lo) (v : BitVec n') :
    (place lo' v).extractLsb' lo n = 0#n := by
  refine BitVec.eq_of_getLsbD_eq fun k hk => ?_
  rcases h with h | h
  · simp [place_getLsbD, show ¬ lo' ≤ lo + k by omega]
  · simp [place_getLsbD, BitVec.getLsbD_of_ge v (lo + k - lo') (by omega)]

section
variable (op : BitVec 4) (d a b : Reg)

theorem fields_encodeFormatA : fieldHigh (encodeFormatA op d a b) = d ∧ fieldMid (encodeFormatA op d a b) = a ∧
    (encodeFormatA op d a b)[immFlagBit] = false ∧ fieldLow (encodeFormatA op d a b) = b := by
  simp [encodeFormatA, fieldHigh, fieldMid, fieldLow, place_getElem, BitVec.extractLsb'_or]

theorem fields_encodeFormatB (imm : BitVec 5) :
    fieldHigh (encodeFormatB op d a imm) = d ∧ fieldMid (encodeFormatB op d a imm) = a ∧
    (encodeFormatB op d a imm)[immFlagBit] = true ∧ fieldImm5 (encodeFormatB op d a imm) = imm := by
  simp [encodeFormatB, fieldHigh, fieldMid, fieldImm5, place_getElem, BitVec.extractLsb'_or]

theorem fields_encodeFormatC : fieldHigh (encodeFormatC op d a) = d ∧ fieldMid (encodeFormatC op d a) = a := by
  simp [encodeFormatC, usedBits_not, fieldHigh, fieldMid, BitVec.extractLsb'_or]

theorem fields_encodeFormatD (n z p : Bool) (off : BitVec 9) :
    (encodeFormatD op n z p off)[nBit] = n ∧ (encodeFormatD op n z p off)[zBit] = z ∧
    (encodeFormatD op n z p off)[pBit] = p ∧ fieldOffset9 (encodeFormatD op n z p off) = off := by
  simp [encodeFormatD, fieldOffset9, place_getElem, BitVec.extractLsb'_or]

theorem fields_encodeFormatE (off : BitVec 9) :
    fieldHigh (encodeFormatE op d off) = d ∧ fieldOffset9 (encodeFormatE op d off) = off := by
  simp [encodeFormatE, fieldHigh, fieldOffset9, BitVec.extractLsb'_or]

theorem fields_encodeFormatF (off : BitVec 6) : fieldHigh (encodeFormatF op d b off) = d ∧
    fieldMid (encodeFormatF op d b off) = b ∧ fieldOffset6 (encodeFormatF op d b off) = off := by
  simp [encodeFormatF, fieldHigh, fieldMid, fieldOffset6, BitVec.extractLsb'_or]

theorem fields_encodeFormatG : fieldMid (encodeFormatG op b) = b := by
  simp [encodeFormatG, fieldMid, BitVec.extractLsb'_or]

theorem fields_encodeFormatH (off : BitVec 11) : (encodeFormatH op off)[longFlagBit] = true ∧
    fieldOffset11 (encodeFormatH op off) = off := by
  simp [encodeFormatH, fieldOffset11, place_getElem, BitVec.extractLsb'_or]

theorem fields_encodeFormatI : (encodeFormatI op b)[longFlagBit] = false ∧
    fieldMid (encodeFormatI op b) = b := by
  simp [encodeFormatI, fieldMid, place_getElem, BitVec.extractLsb'_or]

theorem fields_encodeFormatJ (v : BitVec 8) : fieldTrapvect8 (encodeFormatJ op v) = v := by
  simp [encodeFormatJ, fieldTrapvect8, BitVec.extractLsb'_or]

theorem fields_encodeFormatK (low : BitVec 12) : fieldLow12 (encodeFormatK op low) = low := by
  simp [encodeFormatK, fieldLow12, BitVec.extractLsb'_or]

end

/-- Settles O2, format by format: the Word of a format has its opcode and its fields in their places. -/
theorem decodeInvertsEncode : Obligations.DecodeInvertsEncode := by
  intro i hwf
  cases i with
  | br => simp [encode, decode_opBr, fields_encodeFormatD]
  | addReg | andReg => simp [encode, decode_opAdd, decode_opAnd, fields_encodeFormatA]
  | addImm | andImm => simp [encode, decode_opAdd, decode_opAnd, fields_encodeFormatB]
  | not => simp [encode, decode_opNot, fields_encodeFormatC]
  | ld | st | ldi | sti | lea =>
    simp [encode, decode_opLd, decode_opSt, decode_opLdi, decode_opSti, decode_opLea, fields_encodeFormatE]
  | ldr | str => simp [encode, decode_opLdr, decode_opStr, fields_encodeFormatF]
  | jmp => simp [encode, decode_opJmp, fields_encodeFormatG]
  | jsr => simp [encode, decode_opJsr, fields_encodeFormatH]
  | jsrr => simp [encode, decode_opJsr, fields_encodeFormatI]
  | rti | res => simp [encode, decode_opRti, decode_opRes, fields_encodeFormatK]
  | trap v =>
    have hv : v ∉ routineVectors := by simpa [Instr.wellFormed] using hwf
    simp [encode, decode_opTrap, fields_encodeFormatJ, decodeTrap_of_not_mem hv]
  | getc | out | puts | inChar | putsp | halt => decide

end Sys2Proof
end

section
/-! PROOF. R73, R77: two Words decode alike exactly when they agree on the bits their format uses, so that no used bit
is dropped and every unused bit is ignored. R82: the rows of the opcode table part the Words. -/

namespace Sys2Proof
open Encoding

variable {x y : Word} {lo n : Nat}

/-! Masks, field by field. -/

/-- R73: what a field's mask leaves of a Word is the field in its place. -/
theorem and_fieldMask (w : Word) (lo n : Nat) : w &&& fieldMask lo n = place lo (w.extractLsb' lo n) := by
  refine BitVec.eq_of_getLsbD_eq fun i hi => ?_
  by_cases hlo : lo ≤ i
  · simp [fieldMask, place_getElem, hi, hlo, BitVec.getLsbD_allOnes, Bool.and_comm]
  · simp [fieldMask, place_getElem, hi, hlo]

/-- A field that lies in the Word is not lost by placing it. -/
theorem place_inj (h : lo + n ≤ 16) {u v : BitVec n} : place lo u = place lo v ↔ u = v :=
  ⟨fun he => by simpa [h] using congrArg (BitVec.extractLsb' lo n) he, congrArg _⟩

@[simp] theorem and_fieldMask_eq_iff (h : lo + n ≤ 16) :
    y &&& fieldMask lo n = x &&& fieldMask lo n ↔ y.extractLsb' lo n = x.extractLsb' lo n := by
  rw [and_fieldMask, and_fieldMask, place_inj h]

@[simp] theorem and_or_eq_iff {A B : Word} :
    y &&& (A ||| B) = x &&& (A ||| B) ↔ y &&& A = x &&& A ∧ y &&& B = x &&& B := by
  simp only [BitVec.eq_of_getLsbD_eq_iff, BitVec.getLsbD_and, BitVec.getLsbD_or, ← forall_and]
  refine forall_congr' fun i => ?_
  cases A.getLsbD i <;> cases B.getLsbD i <;> simp

/-! One-bit fields. -/

@[simp] theorem extractLsb'_one_eq_iff (i : Nat) :
    y.extractLsb' i 1 = x.extractLsb' i 1 ↔ y.getLsbD i = x.getLsbD i := by
  simp [BitVec.eq_of_getLsbD_eq_iff]

/-! The instruction and the bits. -/

@[simp] theorem Reg.ofBits_inj {b b' : BitVec 3} : Reg.ofBits b = Reg.ofBits b' ↔ b = b' :=
  ⟨fun h => by simpa using congrArg Reg.toBits h, congrArg _⟩

/-- R79: whatever its vector, a TRAP is encoded in format J. -/
theorem encode_decodeTrap (v : BitVec 8) : encode (decodeTrap v) = encodeFormatJ opTrap v := by
  unfold decodeTrap
  split_ifs with h0 h1 h2 h3 h4 h5
  all_goals simp only [encode, *]

theorem decodeTrap_inj {v v' : BitVec 8} : decodeTrap v = decodeTrap v' ↔ v = v' := by
  refine ⟨fun h => ?_, congrArg _⟩
  simpa only [encode_decodeTrap, fields_encodeFormatJ] using congrArg (fun i => fieldTrapvect8 (encode i)) h

theorem usedBits_decodeTrap (v : BitVec 8) : (decodeTrap v).usedBits = opcodeMask ||| fieldMask trapvectLo 8 := by
  unfold decodeTrap
  split_ifs <;> rfl

/-- R72: the sixteen opcodes are the only ones. -/
theorem opcode_cases (op : BitVec 4) :
    op = opBr ∨ op = opAdd ∨ op = opLd ∨ op = opSt ∨ op = opJsr ∨ op = opAnd ∨ op = opLdr ∨ op = opStr ∨
    op = opRti ∨ op = opNot ∨ op = opLdi ∨ op = opSti ∨ op = opJmp ∨ op = opRes ∨ op = opLea ∨ op = opTrap := by
  revert op; decide

/-- Words that agree on a mask agree on each part of it. -/
theorem and_eq_of_subset {M N : Word} (hsub : N &&& M = M) (h : y &&& N = x &&& N) : y &&& M = x &&& M := by
  rw [← hsub, ← BitVec.and_assoc, ← BitVec.and_assoc, h]

/-- Every format uses the bits of the opcode. -/
theorem fieldOpcode_eq_of_usedBits {i : Instr} (h : y &&& i.usedBits = x &&& i.usedBits) :
    fieldOpcode y = fieldOpcode x := by
  have hsub : i.usedBits &&& opcodeMask = opcodeMask := by cases i <;> simp only [Instr.usedBits] <;> decide
  exact (and_fieldMask_eq_iff (by decide)).1 (and_eq_of_subset hsub h)

/-- For Words of one opcode: they decode alike exactly when they agree on the bits the instruction's format uses. -/
theorem decode_eq_iff_of_fieldOpcode (hop : fieldOpcode y = fieldOpcode x) :
    decode y = decode x ↔ y &&& (decode x).usedBits = x &&& (decode x).usedBits := by
  have hmask : y &&& opcodeMask = x &&& opcodeMask := (and_fieldMask_eq_iff (by decide)).2 hop
  obtain hx | hx | hx | hx | hx | hx | hx | hx | hx | hx | hx | hx | hx | hx | hx | hx :=
    opcode_cases (fieldOpcode x) <;> have hy := hop.trans hx
  · simp [decode_opBr, hx, hy, Instr.usedBits, hmask, fieldOffset9, and_assoc]
  · rw [decode_opAdd hx, decode_opAdd hy]
    cases hfx : x[5] <;> cases hfy : y[5] <;>
      simp [Instr.usedBits, hmask, hfx, hfy, fieldHigh, fieldMid, fieldLow, fieldImm5, and_assoc]
  · simp [decode_opLd, hx, hy, Instr.usedBits, hmask, fieldHigh, fieldOffset9]
  · simp [decode_opSt, hx, hy, Instr.usedBits, hmask, fieldHigh, fieldOffset9]
  · rw [decode_opJsr hx, decode_opJsr hy]
    cases hfx : x[11] <;> cases hfy : y[11] <;>
      simp [Instr.usedBits, hmask, hfx, hfy, fieldMid, fieldOffset11]
  · rw [decode_opAnd hx, decode_opAnd hy]
    cases hfx : x[5] <;> cases hfy : y[5] <;>
      simp [Instr.usedBits, hmask, hfx, hfy, fieldHigh, fieldMid, fieldLow, fieldImm5, and_assoc]
  · simp [decode_opLdr, hx, hy, Instr.usedBits, hmask, fieldHigh, fieldMid, fieldOffset6, and_assoc]
  · simp [decode_opStr, hx, hy, Instr.usedBits, hmask, fieldHigh, fieldMid, fieldOffset6, and_assoc]
  · simp [decode_opRti, hx, hy, Instr.usedBits, hmask, fieldLow12]
  · simp [decode_opNot, hx, hy, Instr.usedBits, hmask, fieldHigh, fieldMid]
  · simp [decode_opLdi, hx, hy, Instr.usedBits, hmask, fieldHigh, fieldOffset9]
  · simp [decode_opSti, hx, hy, Instr.usedBits, hmask, fieldHigh, fieldOffset9]
  · simp [decode_opJmp, hx, hy, Instr.usedBits, hmask, fieldMid]
  · simp [decode_opRes, hx, hy, Instr.usedBits, hmask, fieldLow12]
  · simp [decode_opLea, hx, hy, Instr.usedBits, hmask, fieldHigh, fieldOffset9]
  · simp [decode_opTrap, hx, hy, usedBits_decodeTrap, decodeTrap_inj, hmask, fieldTrapvect8]

/-- R73, R77: two Words decode alike exactly when they agree on the bits the instruction's format uses. -/
theorem decode_eq_iff : decode y = decode x ↔ y &&& (decode x).usedBits = x &&& (decode x).usedBits := by
  constructor
  · intro h
    refine (decode_eq_iff_of_fieldOpcode ?_).1 h
    rw [← fieldOpcode_encode_decode y, h, fieldOpcode_encode_decode]
  · intro h
    exact (decode_eq_iff_of_fieldOpcode (fieldOpcode_eq_of_usedBits h)).2 h

/-- Settles O4: the Word decoded and the Word encoded decode alike. -/
theorem encodeKeepsUsedBits : Obligations.EncodeKeepsUsedBits := fun w =>
  decode_eq_iff.1 (decodeInvertsEncode (decode w) (decode_wellFormed w))

/-- Settles O5: the two Words agree on the used bits. -/
theorem unusedBitsIgnored : Obligations.UnusedBitsIgnored := by
  intro w m hm
  refine decode_eq_iff.2 (BitVec.eq_of_getLsbD_eq fun i hi => ?_)
  have hbit : (m.getLsbD i && (decode w).usedBits.getLsbD i) = false := by
    rw [← BitVec.getLsbD_and, hm, BitVec.ofNat_eq_ofNat, BitVec.getLsbD_zero]
  rw [BitVec.getLsbD_and, BitVec.getLsbD_and, BitVec.getLsbD_xor, Bool.and_xor_distrib_right, hbit, Bool.xor_false]

/-! The rows of the opcode table. -/

theorem fits_opcodeRow (mnemonic : String) (op : BitVec 4) :
    (opcodeRow mnemonic op).fits x = true ↔ fieldOpcode x = op := by
  simp [opcodeRow, TableRow.fits, opcodeMask, and_fieldMask, place_inj, fieldOpcode]

theorem fits_flagRow (mnemonic : String) (op : BitVec 4) {bit : Nat} (hbit : bit < 12) (flag : BitVec 1) :
    (flagRow mnemonic op bit flag).fits x = true ↔ fieldOpcode x = op ∧ x.extractLsb' bit 1 = flag := by
  have hdisjoint : bit + 1 ≤ 12 := hbit
  have hin : bit + 1 ≤ 16 := by omega
  simp only [flagRow, TableRow.fits, opcodeMask, BitVec.and_or_distrib_left, and_fieldMask, fieldOpcode, beq_iff_eq]
  constructor
  · intro h
    exact ⟨by simpa [BitVec.extractLsb'_or, hdisjoint] using congrArg (BitVec.extractLsb' 12 4) h,
      by simpa [BitVec.extractLsb'_or, hdisjoint, hin] using congrArg (BitVec.extractLsb' bit 1) h⟩
  · rintro ⟨rfl, rfl⟩
    rfl

theorem encode_fits_row (i : Instr) : i.row.fits (encode i) = true := by
  cases i with
  | br => exact Laws.EncodeFitsRow.br ..
  | addReg => exact Laws.EncodeFitsRow.addReg ..
  | addImm => exact Laws.EncodeFitsRow.addImm ..
  | ld => exact Laws.EncodeFitsRow.ld ..
  | st => exact Laws.EncodeFitsRow.st ..
  | jsr => exact Laws.EncodeFitsRow.jsr ..
  | jsrr => exact Laws.EncodeFitsRow.jsrr ..
  | andReg => exact Laws.EncodeFitsRow.andReg ..
  | andImm => exact Laws.EncodeFitsRow.andImm ..
  | ldr => exact Laws.EncodeFitsRow.ldr ..
  | str => exact Laws.EncodeFitsRow.str ..
  | rti => exact Laws.EncodeFitsRow.rti ..
  | not => exact Laws.EncodeFitsRow.not ..
  | ldi => exact Laws.EncodeFitsRow.ldi ..
  | sti => exact Laws.EncodeFitsRow.sti ..
  | jmp => exact Laws.EncodeFitsRow.jmp ..
  | res => exact Laws.EncodeFitsRow.res ..
  | lea => exact Laws.EncodeFitsRow.lea ..
  | trap => exact Laws.EncodeFitsRow.trap ..
  | getc => exact Laws.EncodeFitsRow.getc
  | out => exact Laws.EncodeFitsRow.out
  | puts => exact Laws.EncodeFitsRow.puts
  | inChar => exact Laws.EncodeFitsRow.inChar
  | putsp => exact Laws.EncodeFitsRow.putsp
  | halt => exact Laws.EncodeFitsRow.halt

/-- R82: a Word that agrees with an instruction's Word on the used bits fits its row, which tests used bits only. -/
theorem fits_row_of_usedBits {i : Instr} (h : encode i &&& i.usedBits = x &&& i.usedBits) : i.row.fits x = true := by
  have hsub : i.usedBits &&& i.row.mask = i.row.mask := by
    cases i <;> simp only [Instr.usedBits, Instr.row] <;> decide
  have henc := encode_fits_row i
  rwa [TableRow.fits, and_eq_of_subset hsub h] at henc

/-- R82: of the base rows a Word fits the one its opcode and, inside ADD, AND and 0100, its flag select. -/
theorem baseRows_fit_one (w : Word) : (baseRows.filter fun r => r.fits w).length = 1 := by
  simp only [baseRows, List.map, Instr.row, ← List.countP_eq_length_filter, List.countP_cons, List.countP_nil,
    fits_opcodeRow, fits_flagRow _ _ (by decide : immFlagBit < 12), fits_flagRow _ _ (by decide : longFlagBit < 12)]
  -- What is left counts the rows by opcode and the two flags: 64 cases.
  generalize fieldOpcode w = op, w.extractLsb' immFlagBit 1 = imm, w.extractLsb' longFlagBit 1 = long
  revert op imm long
  decide

/-- Settles O3: the row of the instruction is fitted through the used bits, and the base rows part the Words. -/
theorem everyWordFitsOneRow : Obligations.EveryWordFitsOneRow := fun w =>
  ⟨decode_wellFormed w, fits_row_of_usedBits (encodeKeepsUsedBits w), baseRows_fit_one w⟩

/-! The fields of a Word, read off it. -/

theorem fieldHigh_eq {w : Word} {r : Reg} (h : w.extractLsb' 9 3 = r.toBits) : fieldHigh w = r := by
  simp [fieldHigh, h]

theorem fieldMid_eq {w : Word} {r : Reg} (h : w.extractLsb' 6 3 = r.toBits) : fieldMid w = r := by
  simp [fieldMid, h]

theorem fieldLow_eq {w : Word} {r : Reg} (h : w.extractLsb' 0 3 = r.toBits) : fieldLow w = r := by
  simp [fieldLow, h]

theorem getLsbD_of_extractLsb' {w : Word} {i : Nat} {b : Bool} (h : w.extractLsb' i 1 = BitVec.ofBool b) :
    w.getLsbD i = b := by
  simpa using congrArg (fun v => v.getLsbD 0) h

/-- Settles O1: each Word computed, and the selectors listed. -/
theorem sampleWordsDecode : Obligations.SampleWordsDecode := by
  unfold Obligations.SampleWordsDecode
  decide

/-- Settles O6: opcode by opcode, the imm-flag deciding inside ADD and AND. -/
theorem operateWordsDecode : Obligations.OperateWordsDecode := by
  intro w d a b imm hd ha hb himm
  have hhigh := fieldHigh_eq hd
  have hmid := fieldMid_eq ha
  have hlow := fieldLow_eq hb
  have himm5 : fieldImm5 w = imm := himm
  refine ⟨fun hop hflag => ?_, fun hop hflag => ?_, fun hop hflag => ?_, fun hop hflag => ?_, fun hop => ?_⟩
  · rw [decode_opAdd hop, getLsbD_of_extractLsb' (b := false) hflag, hhigh, hmid, hlow]; rfl
  · rw [decode_opAdd hop, getLsbD_of_extractLsb' (b := true) hflag, hhigh, hmid, himm5]; rfl
  · rw [decode_opAnd hop, getLsbD_of_extractLsb' (b := false) hflag, hhigh, hmid, hlow]; rfl
  · rw [decode_opAnd hop, getLsbD_of_extractLsb' (b := true) hflag, hhigh, hmid, himm5]; rfl
  · rw [decode_opNot hop, hhigh, hmid]

/-- Settles O7: opcode by opcode, the long-flag deciding inside 0100. -/
theorem controlWordsDecode : Obligations.ControlWordsDecode := by
  intro w n z p base off9 off11 hn hz hp hbase hoff9 hoff11
  have hmid := fieldMid_eq hbase
  have hoffset9 : fieldOffset9 w = off9 := hoff9
  have hoffset11 : fieldOffset11 w = off11 := hoff11
  refine ⟨fun hop => ?_, fun hop => ?_, fun hop hflag => ?_, fun hop hflag => ?_⟩
  · rw [decode_opBr hop, getLsbD_of_extractLsb' hn, getLsbD_of_extractLsb' hz, getLsbD_of_extractLsb' hp, hoffset9]
  · rw [decode_opJmp hop, hmid]
  · rw [decode_opJsr hop, getLsbD_of_extractLsb' (b := true) hflag, hoffset11]; rfl
  · rw [decode_opJsr hop, getLsbD_of_extractLsb' (b := false) hflag, hmid]; rfl

/-- Settles O8, opcode by opcode. -/
theorem loadStoreWordsDecode : Obligations.LoadStoreWordsDecode := by
  intro w r base off9 off6 hr hbase hoff9 hoff6
  have hhigh := fieldHigh_eq hr
  have hmid := fieldMid_eq hbase
  have hoffset9 : fieldOffset9 w = off9 := hoff9
  have hoffset6 : fieldOffset6 w = off6 := hoff6
  refine ⟨fun hop => ?_, fun hop => ?_, fun hop => ?_, fun hop => ?_, fun hop => ?_, fun hop => ?_, fun hop => ?_⟩
  · rw [decode_opLd hop, hhigh, hoffset9]
  · rw [decode_opSt hop, hhigh, hoffset9]
  · rw [decode_opLdr hop, hhigh, hmid, hoffset6]
  · rw [decode_opStr hop, hhigh, hmid, hoffset6]
  · rw [decode_opLdi hop, hhigh, hoffset9]
  · rw [decode_opSti hop, hhigh, hoffset9]
  · rw [decode_opLea hop, hhigh, hoffset9]

/-- R79: the six vectors lie between 0x20 and 0x25. -/
theorem not_mem_routineVectors {v : BitVec 8} (h : v.toNat < 0x20 ∨ 0x25 < v.toNat) : v ∉ routineVectors := by
  intro hv
  simp only [routineVectors, List.mem_cons, List.not_mem_nil, or_false] at hv
  obtain rfl | rfl | rfl | rfl | rfl | rfl := hv <;> simp at h

/-- Settles O9: RTI and RES keep their low bits, and opcode 1111 is the dispatcher's table. -/
theorem trapWordsDecode : Obligations.TrapWordsDecode := by
  intro w v low hv hlow
  refine ⟨fun hop => ?_, fun hop => ?_, fun hop => ?_⟩
  · exact (decode_opRti hop).trans (congrArg Instr.rti hlow)
  · exact (decode_opRes hop).trans (congrArg Instr.res hlow)
  · rw [decode_opTrap hop, show fieldTrapvect8 w = v from hv]
    refine ⟨?_, ?_, ?_, ?_, ?_, ?_, fun h => decodeTrap_of_not_mem (not_mem_routineVectors h)⟩ <;>
      rintro rfl <;> rfl

end Sys2Proof
end

section
/-! PROOF. The invariant (R7, R33) holds at reset and is kept by every step; from a state that has it a step always
answers (R82, R225). -/

namespace Sys2Proof.Machine

/-- What every instruction that completes keeps: the parameters and the schedule, the end of the input, the front of the
output. -/
theorem Completes.keeps {i : Instr} {s t : State} (h : Completes i s t) :
    t.cfg = s.cfg ∧ t.arrivals = s.arrivals ∧ (∃ used, s.inq = used ++ t.inq) ∧
      ∃ written, t.out = s.out ++ written := by
  cases hv : trapVector i with
  | none =>
    obtain ⟨hcfg, harr, hinq, hout, -⟩ := plain_frame hv h
    exact ⟨hcfg, harr, hinq, [], by rw [hout, List.append_nil]⟩
  | some v =>
    obtain ⟨hcfg, harr, -, hinq, hout, -⟩ := routine_frame (completes_trap hv h)
    exact ⟨hcfg, harr, hinq, hout⟩

/-! The canonical form of the memory. -/

theorem RoutineCompletes.wf {v : BitVec 8} {s t : State} (h : RoutineCompletes v s t) (hm : s.mem.wf s.unlisted) :
    t.mem.wf t.unlisted := by
  obtain ⟨-, c, rest, -, rfl⟩ | ⟨-, rfl⟩ | ⟨-, hl⟩ | ⟨-, c, rest, -, rfl⟩ | ⟨-, hl⟩ | ⟨-, rfl⟩ | ⟨-, rfl⟩ := h
  · rw [State.inputToR0_eq]; exact hm
  · exact hm
  · obtain ⟨-, -, -, -, -, -, -, -, -, hwf⟩ := stringLoop_frame hl
    exact hwf hm
  · rw [State.inputToR0_eq]; exact hm
  · obtain ⟨-, -, -, -, -, -, -, -, -, hwf⟩ := stringLoop_frame hl
    exact hwf hm
  · exact hm
  · exact hm

theorem Completes.wf {i : Instr} {s t : State} (h : Completes i s t) (hm : s.mem.wf s.unlisted) :
    t.mem.wf t.unlisted := by
  cases i with
  | ld | ldr =>
    obtain ⟨w, u, hread, rfl⟩ := h
    exact State.memRead_wf (t := u) hread hm
  | ldi =>
    obtain ⟨ea, u, w, v, hptr, hread, rfl⟩ := h
    exact State.memRead_wf (t := v) hread (State.memRead_wf hptr hm)
  | sti =>
    obtain ⟨ea, u, hptr, rfl⟩ := h
    exact State.setCell_wf _ _ (State.memRead_wf hptr hm)
  | st | str =>
    subst h
    exact State.setCell_wf _ _ hm
  | br n z p off =>
    subst h
    split <;> exact hm
  | trap | getc | out | puts | inChar | putsp | halt => exact RoutineCompletes.wf (s := s.enterTrap) h hm
  | addReg | addImm | andReg | andImm | not | lea | jsr | jsrr | jmp | rti | res =>
    subst h
    exact hm

theorem exec_keeps_inv {i : Instr} {s t : State} (hs : s.Inv) (h : exec i s = .next t) : t.Inv := by
  obtain ⟨hcfg, hmem⟩ := hs
  obtain ⟨rfl, -⟩ | hc := exec_cases h
  · exact ⟨hcfg, hmem⟩
  · obtain ⟨ht, -⟩ := hc.keeps
    exact ⟨by rwa [ht], hc.wf hmem⟩

theorem State.arrive_inv {s : State} (h : s.Inv) : s.arrive.Inv := by
  simpa [State.Inv] using h

theorem State.fetch_inv {s u : State} {ir : Word} (hs : s.Inv) (h : s.fetch = some (ir, u)) : u.Inv := by
  obtain ⟨t, hread, rfl⟩ := State.fetch_some h
  obtain ⟨-, -, -, -, hcfg, -⟩ := State.memRead_frame hread
  exact ⟨by rw [State.setPc_cfg, hcfg]; exact hs.1, State.memRead_wf (t := t) hread hs.2⟩

/-- Settles O12: the arrival of input, the fetch and the instruction each keep the invariant. -/
theorem stepKeepsInvariant : Obligations.StepKeepsInvariant := by
  intro s t hs h
  obtain ⟨r, -, he⟩ | ⟨-, -, he⟩ | ⟨-, ir, u, hf, he⟩ := step_cases s <;> rw [he] at h
  · cases h; exact hs
  · cases h; exact State.arrive_inv hs
  · exact exec_keeps_inv (State.fetch_inv (State.arrive_inv hs) hf) h

/-- Settles O13: the memory of the reset state lists nothing. -/
theorem resetMeetsInvariant : Obligations.ResetMeetsInvariant :=
  ⟨⟨by decide, Memory.wf_nil _⟩, fun _ hc => ⟨hc, Memory.wf_nil _⟩⟩

/-! No fault and no refusal. -/

theorem State.afterRead_answers {s : State} {r : Option (Word × State)}
    {k : Word → State → Host.Outcome State Fault Refusal} (hk : ∀ w u, r = some (w, u) → ∃ t, k w u = .next t) :
    ∃ t, s.afterRead r k = .next t := by
  cases r with
  | none => exact ⟨_, rfl⟩
  | some p => exact hk p.1 p.2 rfl

theorem inputRoutine_ends (s : State) (echo : Bool) : inputRoutine s echo ≠ .neverEnds := by
  cases hq : s.inq with
  | nil => simp [inputRoutine_waits hq]
  | cons c rest => simp [inputRoutine_done echo hq]

/-- R170, log entry 20: with distinct keyboard addresses every trap routine ends or waits. -/
theorem trapRoutine_ends {s : State} (hc : s.cfg.wf) (v : BitVec 8) : trapRoutine s v ≠ .neverEnds := by
  unfold trapRoutine
  split_ifs
  · exact inputRoutine_ends s false
  · exact Routine.noConfusion
  · exact stringLoop_ends hc le_rfl
  · exact inputRoutine_ends _ true
  · exact stringLoop_ends hc le_rfl
  · exact Routine.noConfusion
  · exact Routine.noConfusion

theorem exec_trap_answers {s : State} (hc : s.cfg.wf) (v : BitVec 8) : ∃ t, exec (.trap v) s = .next t := by
  have he : exec (.trap v) s = s.finish (trapRoutine s.enterTrap v) := rfl
  cases hr : trapRoutine s.enterTrap v with
  | done t => exact ⟨t, by rw [he, hr, State.finish_done]⟩
  | waits => exact ⟨_, by rw [he, hr, State.finish_waits]⟩
  | neverEnds => exact absurd hr (trapRoutine_ends (s := s.enterTrap) hc v)

/-- R82, R225: with distinct keyboard addresses every instruction answers a next state. -/
theorem exec_answers {s : State} (hc : s.cfg.wf) (i : Instr) : ∃ t, exec i s = .next t := by
  cases i with
  | ld | ldr | sti => exact State.afterRead_answers fun _ _ _ => ⟨_, rfl⟩
  | ldi => exact State.afterRead_answers fun _ _ _ => State.afterRead_answers fun _ _ _ => ⟨_, rfl⟩
  | trap v => exact exec_trap_answers hc v
  | getc => exact exec_trap_answers hc 0x20
  | out => exact exec_trap_answers hc 0x21
  | puts => exact exec_trap_answers hc 0x22
  | inChar => exact exec_trap_answers hc 0x23
  | putsp => exact exec_trap_answers hc 0x24
  | halt => exact exec_trap_answers hc 0x25
  | br | addReg | addImm | andReg | andImm | not | lea | st | str | jsr | jsrr | jmp | rti | res => exact ⟨_, rfl⟩

/-- Settles O14: a HALTED core and a fetch that waits answer at once, and the instruction fetched answers since the
fetch keeps the keyboard addresses distinct. -/
theorem everyStepAnswers : Obligations.EveryStepAnswers := by
  intro s hs
  obtain ⟨r, -, he⟩ | ⟨-, -, he⟩ | ⟨-, ir, u, hf, he⟩ := step_cases s
  · exact ⟨_, he⟩
  · exact ⟨_, he⟩
  · rw [he]
    exact exec_answers (State.fetch_inv (State.arrive_inv hs) hf).1 _

end Sys2Proof.Machine
end

section
/-! PROOF. What the operate, control and memory instructions do (R100 to R146): each is a result write, a new pc or a
store, after the reads of its rule. -/

namespace Sys2Proof.Machine

/-! Operate instructions. -/

/-- Settles O28: both forms are the result write of their sum. -/
theorem addResult : Obligations.AddResult := fun s =>
  ⟨fun d a b => ⟨_, rfl, s.writeResult_only d (s.x a + s.x b)⟩,
    fun d a imm => ⟨_, rfl, s.writeResult_only d (s.x a + imm.signExtend 16)⟩⟩

/-- Settles O29: both forms are the result write of their conjunction. -/
theorem andResult : Obligations.AndResult := fun s =>
  ⟨fun d a b => ⟨_, rfl, s.writeResult_only d (s.x a &&& s.x b)⟩,
    fun d a imm => ⟨_, rfl, s.writeResult_only d (s.x a &&& imm.signExtend 16)⟩⟩

/-- Settles O30: the result write of the complement. -/
theorem notResult : Obligations.NotResult := by
  intro s d a
  refine ⟨_, ~~~ s.x a, rfl, s.writeResult_only d (~~~ s.x a), fun i hi => ?_⟩
  rw [BitVec.getLsbD_not, decide_eq_true hi, Bool.true_and]

/-- Settles O38: the result write of the address. -/
theorem leaResult : Obligations.LeaResult := fun s d off =>
  ⟨_, rfl, s.writeResult_only d (s.pc + off.signExtend 16)⟩

/-- Settles O31: the sign bit is bit N-1, and a sign extension to more bits keeps the signed value. -/
theorem signExtensionValue : Obligations.SignExtensionValue := by
  intro n v hn hle
  refine ⟨fun i hi => ?_, BitVec.toInt_signExtend_of_le hle⟩
  rw [sext, BitVec.getLsbD_signExtend, decide_eq_true hi, Bool.true_and, BitVec.msb_eq_getLsbD_last]

/-! Control transfer. -/

/-- R120: the cond bits n, z and p select NEG, ZRO and POS. -/
theorem branchTaken_iff {n z p : Bool} {c : Cond} :
    branchTaken n z p c = true ↔ (n = true ∧ c = .neg) ∨ (z = true ∧ c = .zro) ∨ (p = true ∧ c = .pos) := by
  revert n z p
  cases c <;> decide

theorem exec_br (n z p : Bool) (off : BitVec 9) (s : State) :
    exec (.br n z p off) s = .next (if branchTaken n z p s.cond then s.setPc (s.pc + off.signExtend 16) else s) := rfl

/-- Settles O32, by the flags the cond bits select. -/
theorem branchRule : Obligations.BranchRule := by
  intro n z p off s
  rw [exec_br, ← branchTaken_iff]
  exact ⟨fun h => by rw [if_pos h]; rfl, fun h => by rw [if_neg h]⟩

/-- R122, R123: linking and jumping writes R7 and pc and nothing else. -/
theorem State.link_frame (s : State) (a : Word) :
    let t := (s.setX .r7 s.pc).setPc a
    t.x .r7 = s.pc ∧ t.pc = a ∧ KeepsRegsExcept [.r7] s t ∧ t.cond = s.cond ∧ KeepsCellsExcept [] s t ∧
      KeepsStreams s t ∧ KeepsRun s t := by
  refine ⟨by simp, rfl, fun r hr => ?_, rfl, fun _ _ => rfl, ⟨rfl, rfl, rfl⟩, rfl, rfl⟩
  simpa using fun h => absurd h (by simpa using hr)

/-- Settles O33: JSR and JSRR link and jump, JSRR to a base read after R7 is written. -/
theorem jumpAndLink : Obligations.JumpAndLink := by
  intro s
  refine ⟨fun b => rfl, fun o => ?_, fun b => ?_⟩
  · exact ⟨_, rfl, s.link_frame (s.pc + o.signExtend 16)⟩
  · obtain ⟨hr7, hpc, hframe⟩ := s.link_frame ((s.setX .r7 s.pc).x b)
    refine ⟨_, rfl, hr7, fun hb => ?_, fun hb => ?_, hframe⟩
    · rw [hpc, State.x_setX, if_neg hb]
    · rw [hpc, State.x_setX, if_pos hb]

/-! The instructions that read memory. -/

theorem exec_ld (d : Reg) (off : BitVec 9) (s : State) :
    exec (.ld d off) s =
      s.afterRead (s.memRead (s.pc + off.signExtend 16)) fun w u => .next (u.writeResult d w) := rfl

theorem exec_ldr (d b : Reg) (off : BitVec 6) (s : State) :
    exec (.ldr d b off) s =
      s.afterRead (s.memRead (s.x b + off.signExtend 16)) fun w u => .next (u.writeResult d w) := rfl

theorem exec_ldi (d : Reg) (off : BitVec 9) (s : State) :
    exec (.ldi d off) s =
      s.afterRead (s.memRead (s.pc + off.signExtend 16)) fun ea u =>
        s.afterRead (u.memRead ea) fun w v => .next (v.writeResult d w) := rfl

theorem exec_sti (r : Reg) (off : BitVec 9) (s : State) :
    exec (.sti r off) s =
      s.afterRead (s.memRead (s.pc + off.signExtend 16)) fun ea u => .next (u.setCell ea (u.x r)) := rfl

/-- R52: a read leaves the registers alone. -/
theorem State.memRead_x {s u : State} {a w : Word} (h : s.memRead a = some (w, u)) (r : Reg) : u.x r = s.x r := by
  obtain ⟨hgpr, -⟩ := State.memRead_frame h
  exact congrArg (GPRs.get · r) hgpr

/-- Settles O35: a read that does not wait completes, and the rest is a result write. -/
theorem loadResult : Obligations.LoadResult := by
  intro s
  refine ⟨fun d off h => ?_, fun d b off h => ?_⟩
  · obtain ⟨w, u, hread⟩ := State.memRead_completes h
    exact ⟨w, u, _, by rw [exec_ld, hread, State.afterRead_some], State.memRead_answers hread, u.writeResult_only d w⟩
  · obtain ⟨w, u, hread⟩ := State.memRead_completes h
    exact ⟨w, u, _, by rw [exec_ldr, hread, State.afterRead_some], State.memRead_answers hread, u.writeResult_only d w⟩

/-- Settles O36: each of the two reads completes if it does not wait. -/
theorem loadIndirectResult : Obligations.LoadIndirectResult := by
  intro s d off h
  obtain ⟨ea, u, hptr⟩ := State.memRead_completes h
  refine ⟨ea, u, State.memRead_answers hptr, fun hdatum => ?_⟩
  obtain ⟨w, v, hread⟩ := State.memRead_completes hdatum
  refine ⟨w, v, _, ?_, State.memRead_answers hread, v.writeResult_only d w⟩
  rw [exec_ldi, hptr, State.afterRead_some, hread, State.afterRead_some]

/-- Settles O37: a read of the data address without input answers nothing; the datum read of LDI finds the input and the
parameters its pointer read answers. -/
theorem memoryInstructionsWait : Obligations.MemoryInstructionsWait := by
  intro s hc
  refine ⟨fun d off h => ?_, fun d b off h => ?_, fun d off ea u hptr h => ?_⟩
  · have hread := State.memRead_waits hc h
    rw [exec_ld, exec_ldi, exec_sti, hread]
    exact ⟨rfl, rfl, rfl⟩
  · rw [exec_ldr, State.memRead_waits hc h, State.afterRead_none]
  · obtain ⟨u', hread, hinq, hcfg⟩ := memRead_of_answers hptr
    obtain ⟨-, -, -, -, hcfg', -⟩ := State.memRead_frame hread
    obtain ⟨hea, hempty⟩ := h
    have hmissing : u'.inputMissing ea := ⟨by rw [hcfg]; exact hea, hinq.trans hempty⟩
    rw [exec_ldi, hread, State.afterRead_some, State.memRead_waits (by rwa [hcfg']) hmissing, State.afterRead_none]

/-- Settles O39: both are the store of the register. -/
theorem storeResult : Obligations.StoreResult := fun s =>
  ⟨fun r off => ⟨_, rfl, s.setCell_only (s.pc + off.signExtend 16) (s.x r)⟩,
    fun r b off => ⟨_, rfl, s.setCell_only (s.x b + off.signExtend 16) (s.x r)⟩⟩

/-- Settles O40: the store of the register, which the pointer read leaves alone. -/
theorem storeIndirectResult : Obligations.StoreIndirectResult := by
  intro s r off h
  obtain ⟨ea, u, hptr⟩ := State.memRead_completes h
  refine ⟨ea, u, _, State.memRead_answers hptr, ?_, u.setCell_only ea (s.x r)⟩
  rw [exec_sti, hptr, State.afterRead_some, State.memRead_x hptr]

/-- Settles O42: both reads of LDI are of plain cells, and the second store is not at the pointer. -/
theorem ldiRoundTrip : Obligations.LdiRoundTrip := by
  intro s s1 s2 ra rb d o1 o2 o3 p2 p3 A B hA hB hB2 hA3 hne hAdev hBdev h1 h2
  have hs1 : s.setCell A B = s1 := by rw [hA, hB]; exact Host.Outcome.next.inj h1
  have hs2 : (s1.setPc p2).setCell B (s1.x rb) = s2 := by rw [hB2]; exact Host.Outcome.next.inj h2
  have hcfg : (s2.setPc p3).cfg = s.cfg := by simp [← hs2, ← hs1]
  have hptr : (s2.setPc p3).cell A = B := by simp [← hs2, ← hs1, hne]
  have hdatum : (s2.setPc p3).cell B = s.x rb := by simp [← hs2, ← hs1]
  obtain ⟨hAs, hAd⟩ := not_or.1 hAdev
  obtain ⟨hBs, hBd⟩ := not_or.1 hBdev
  rw [← hcfg] at hAs hAd hBs hBd
  refine ⟨(s2.setPc p3).writeResult d (s.x rb), ?_, by simp⟩
  rw [exec_ldi, State.setPc_pc, ← hA3, State.memRead_plain hAs hAd, hptr, State.afterRead_some,
    State.memRead_plain hBs hBd, hdatum, State.afterRead_some]

end Sys2Proof.Machine
end

section
/-! PROOF. TRAP (R170): a Word of opcode 1111 runs the routine of its low eight bits; the input routines, HALT and the
fatal conditions write R7 and what their rules name. -/

namespace Sys2Proof.Machine
open Encoding

/-! The dispatch on the vector. -/

theorem fieldOpcode_append (op u : BitVec 4) (v : BitVec 8) : fieldOpcode (op ++ u ++ v : Word) = op :=
  (BitVec.extractLsb'_append_eq_of_le (by decide)).trans BitVec.extractLsb'_append_eq_left

theorem fieldTrapvect8_append (op u : BitVec 4) (v : BitVec 8) : fieldTrapvect8 (op ++ u ++ v : Word) = v :=
  BitVec.extractLsb'_append_eq_right

/-- R79, log entry 29: what the dispatcher's table answers runs as TRAP with the vector. -/
theorem exec_decodeTrap (v : BitVec 8) (s : State) : exec (decodeTrap v) s = exec (.trap v) s := by
  by_cases hv : v ∈ routineVectors
  · simp only [routineVectors, List.mem_cons, List.not_mem_nil, or_false] at hv
    obtain rfl | rfl | rfl | rfl | rfl | rfl := hv <;> rfl
  · rw [decodeTrap_of_not_mem hv]

/-- Settles O43: the opcode selects the dispatcher's table, and its answer runs as TRAP with the vector. -/
theorem trapDispatchesOnVector : Obligations.TrapDispatchesOnVector := by
  intro u v s
  rw [decode_opTrap (fieldOpcode_append 0b1111#4 u v), fieldTrapvect8_append, exec_decodeTrap]

/-! GETC and IN. -/

theorem exec_getc_of_input {s : State} {c : Byte} {rest : List Byte} (h : s.inq = c :: rest) :
    exec .getc s = .next (State.inputToR0 { s.enterTrap with inq := rest, out := s.out } c) :=
  congrArg s.finish (inputRoutine_done (s := s.enterTrap) false h)

theorem exec_inChar_of_input {s : State} {c : Byte} {rest : List Byte} (h : s.inq = c :: rest) :
    exec .inChar s =
      .next (State.inputToR0 { s.enterTrap with inq := rest, out := s.out ++ s.cfg.inPrompt ++ [c] } c) := by
  have hr : inRoutine s.enterTrap =
      .done (State.inputToR0 { s.enterTrap with inq := rest, out := s.out ++ s.cfg.inPrompt ++ [c] } c) := by
    rw [inRoutine, State.writeOutputChars_eq]
    exact inputRoutine_done true h
  exact congrArg s.finish hr

/-- R171, R174: the end GETC and IN share, whatever input and output they leave. -/
theorem State.inputToR0_enterTrap (s : State) (c : Byte) (inq out : List Byte) :
    let t := State.inputToR0 { s.enterTrap with inq := inq, out := out } c
    t.x .r0 = c.zeroExtend 16 ∧ t.x .r7 = s.pc ∧ t.inq = inq ∧ t.out = out ∧
      (s.cfg.trapInputSetsFlags = false → t.cond = s.cond) ∧
      (s.cfg.trapInputSetsFlags = true → FlagTable (c.zeroExtend 16) t.cond) ∧
      KeepsRegsExcept [.r0, .r7] s t ∧ t.pc = s.pc ∧ KeepsCellsExcept [] s t ∧ t.arrivals = s.arrivals ∧
      KeepsRun s t := by
  rw [State.inputToR0_eq]
  have hx : ∀ r, (((s.gpr.set .r7 s.pc).set .r0 (zext8 c)).get r) =
      if r = .r0 then zext8 c else if r = .r7 then s.pc else s.x r := by
    intro r; rw [GPRs.get_set, GPRs.get_set]; rfl
  refine ⟨hx .r0, hx .r7, rfl, rfl, fun hf => ?_, fun hf => ?_, fun r hr => ?_, rfl, fun _ _ => rfl, rfl, rfl, rfl⟩
  · exact if_neg (by simp [State.enterTrap, hf])
  · exact (if_pos hf : ite (s.cfg.trapInputSetsFlags = true) _ _ = _) ▸ flagTable_flagOf (zext8 c)
  · obtain ⟨h0, h7⟩ : r ≠ .r0 ∧ r ≠ .r7 := by simpa using hr
    exact (hx r).trans (by rw [if_neg h0, if_neg h7])

/-- Settles O44: GETC ends as the input routines do, with the output as it was. -/
theorem getcResult : Obligations.GetcResult := fun s c rest h =>
  ⟨_, exec_getc_of_input h, s.inputToR0_enterTrap c rest s.out⟩

/-- Settles O45: IN ends as the input routines do, with the prompt and the echo written. -/
theorem inResult : Obligations.InResult := fun s c rest h =>
  ⟨_, exec_inChar_of_input h, s.inputToR0_enterTrap c rest (s.out ++ s.cfg.inPrompt ++ [c])⟩

theorem exec_getc_waits {s : State} (h : s.inq = []) : exec .getc s = .next (s.setPc (s.pc - 1)) :=
  congrArg s.finish (inputRoutine_waits (s := s.enterTrap) h)

theorem exec_inChar_waits {s : State} (h : s.inq = []) : exec .inChar s = .next (s.setPc (s.pc - 1)) := by
  have hr : inRoutine s.enterTrap = .waits := by
    rw [inRoutine, State.writeOutputChars_eq]
    exact inputRoutine_waits h
  exact congrArg s.finish hr

/-- Settles O46: TRAP with one of the two vectors is the routine itself. -/
theorem inputRoutinesWait : Obligations.InputRoutinesWait := by
  intro i s hi h
  obtain rfl | rfl | rfl | rfl := hi
  · exact exec_getc_waits h
  · exact exec_inChar_waits h
  · exact exec_getc_waits h
  · exact exec_inChar_waits h

/-! HALT and the fatal conditions. -/

/-- R176, R177: entering a routine and halting writes R7 and the run state and nothing else. -/
theorem State.haltWith_enterTrap (s : State) (r : HaltReason) :
    let t := s.enterTrap.haltWith r
    t.x .r7 = s.pc ∧ KeepsRegsExcept [.r7] s t ∧ t.cond = s.cond ∧ t.pc = s.pc ∧ KeepsCellsExcept [] s t ∧
      KeepsStreams s t ∧ t.cfg = s.cfg := by
  refine ⟨State.x_setX s .r7 .r7 s.pc, fun r hr => ?_, rfl, rfl, fun _ _ => rfl, ⟨rfl, rfl, rfl⟩, rfl⟩
  exact (State.x_setX s .r7 r s.pc).trans (if_neg (by simpa using hr))

/-- Settles O52: HALT is R7 and the run state written. -/
theorem haltResult : Obligations.HaltResult := fun s =>
  ⟨_, rfl, rfl, rfl, s.haltWith_enterTrap .halt⟩

/-- R177: a vector that selects no routine. -/
theorem trapRoutine_of_not_mem {v : BitVec 8} (hv : v ∉ routineVectors) (s : State) :
    trapRoutine s v = .done (s.haltWith (.invalidTrapVector v)) := by
  simp only [routineVectors, List.mem_cons, List.not_mem_nil, or_false, not_or] at hv
  obtain ⟨h0, h1, h2, h3, h4, h5⟩ := hv
  rw [trapRoutine, if_neg h0, if_neg h1, if_neg h2, if_neg h3, if_neg h4, if_neg h5]
  rfl

theorem exec_trap_of_not_mem {v : BitVec 8} (hv : v ∉ routineVectors) (s : State) :
    exec (.trap v) s = .next (s.enterTrap.haltWith (.invalidTrapVector v)) :=
  congrArg s.finish (trapRoutine_of_not_mem hv s.enterTrap)

/-- Settles O53: the vectors outside 0x20 to 0x25 are those no routine has. -/
theorem invalidVectorHalts : Obligations.InvalidVectorHalts := fun s v hv =>
  ⟨_, exec_trap_of_not_mem (not_mem_routineVectors hv) s, rfl, rfl,
    s.haltWith_enterTrap (.invalidTrapVector v)⟩

/-- Settles O54: the Word recorded is the opcode and the low bits the decoder kept. -/
theorem invalidOpcodeHalts : Obligations.InvalidOpcodeHalts := by
  refine ⟨fun s ir hop => ?_, fun s low => ⟨rfl, rfl⟩⟩
  obtain hop | hop := hop
  · have hir : 0b1000#4 ++ fieldLow12 ir = ir := eq_of_fieldOpcode_of_fieldLow12 hop rfl
    rw [decode_opRti hop]
    exact congrArg (fun w => Host.Outcome.next (s.raiseInvalidOpcode w)) hir
  · have hir : 0b1101#4 ++ fieldLow12 ir = ir := eq_of_fieldOpcode_of_fieldLow12 hop rfl
    rw [decode_opRes hop]
    exact congrArg (fun w => Host.Outcome.next (s.raiseInvalidOpcode w)) hir

end Sys2Proof.Machine
end

section
/-! PROOF. R173, R175: PUTS and PUTSP. What a string of Words in plain cells has a routine write is a function of the
Words alone, `wordsWritten`; the string statements are facts about it. Strings anywhere are the loops of the rules. -/

namespace Sys2Proof.Machine

variable {bytes : Word → List Byte × Bool}

theorem exec_puts_eq (s : State) :
    exec .puts s = s.finish (stringLoop putsBytes (s.enterTrap.stringFuel (s.x .r0)) (s.x .r0) s.enterTrap) := rfl

theorem exec_putsp_eq (s : State) :
    exec .putsp s = s.finish
      (stringLoop (putspBytes s.cfg.putspStop) (s.enterTrap.stringFuel (s.x .r0)) (s.x .r0) s.enterTrap) := rfl

/-! Strings anywhere. -/

/-- R173, R175, R208: what a string routine does with the loop of its rule. -/
theorem stringLoop_is_the_loop (bytes : Word → List Byte × Bool) {s : State} (hc : s.cfg.wf) (a : Word) :
    let o := s.finish (stringLoop bytes (s.enterTrap.stringFuel a) a s.enterTrap)
    (∀ u, StringEnds bytes a s.enterTrap u → o = .next u) ∧
      (StringWaits bytes a s.enterTrap → o = .next (s.setPc (s.pc - 1))) ∧
      ((∃ u, StringEnds bytes a s.enterTrap u) ∨ StringWaits bytes a s.enterTrap) := by
  refine ⟨fun u hu => ?_, fun hw => ?_, stringEnds_or_stringWaits _ a s.enterTrap hc le_rfl⟩
  · rw [stringLoop_of_ends hu _ hc le_rfl, State.finish_done]
  · rw [stringLoop_of_waits hw _ hc le_rfl, State.finish_waits]

/-- Settles O51: both routines run their loop from R0, which entering the TRAP leaves alone. -/
theorem stringRoutinesAreTheLoops : Obligations.StringRoutinesAreTheLoops := by
  intro s hc
  rw [exec_puts_eq, exec_putsp_eq]
  exact ⟨stringLoop_is_the_loop putsBytes hc _, stringLoop_is_the_loop (putspBytes s.cfg.putspStop) hc _⟩

/-! Strings in plain cells. -/

/-- What a string routine writes of these Words, read one after another: none if the loop exits at none of them. -/
def wordsWritten (bytes : Word → List Byte × Bool) : List Word → Option (List Byte)
  | [] => none
  | w :: ws => if (bytes w).2 then (wordsWritten bytes ws).map ((bytes w).1 ++ ·) else some (bytes w).1

theorem wordsWritten_stop {w : Word} (ws : List Word) {bs : List Byte} (h : bytes w = (bs, false)) :
    wordsWritten bytes (w :: ws) = some bs := by
  simp [wordsWritten, h]

theorem wordsWritten_more {w : Word} {ws : List Word} {bs cs : List Byte} (h : bytes w = (bs, true))
    (hws : wordsWritten bytes ws = some cs) : wordsWritten bytes (w :: ws) = some (bs ++ cs) := by
  simp [wordsWritten, h, hws]

/-- Words at none of which the loop exits, and one at which it does. -/
theorem wordsWritten_append {f : Word → List Byte} {ws : List Word} {w : Word} {bs : List Byte}
    (hws : ∀ v ∈ ws, bytes v = (f v, true)) (hw : bytes w = (bs, false)) :
    wordsWritten bytes (ws ++ [w]) = some (ws.flatMap f ++ bs) := by
  induction ws with
  | nil => exact wordsWritten_stop [] hw
  | cons v ws ih =>
    have hrest := ih fun u hu => hws u (List.mem_cons_of_mem _ hu)
    rw [List.cons_append, wordsWritten_more (hws v List.mem_cons_self) hrest, List.flatMap_cons, List.append_assoc]

theorem State.holds_congr {s : State} {a : Word} {ws : List Word} (h : s.holds a ws) (t : State)
    (hcfg : t.cfg = s.cfg) (hmem : t.mem = s.mem) : t.holds a ws := by
  induction ws generalizing a with
  | nil => trivial
  | cons w ws ih =>
    obtain ⟨hdev, hcell, hrest⟩ := h
    exact ⟨by rwa [State.isDevice, hcfg], by rwa [State.cell, State.unlisted, hcfg, hmem], ih hrest⟩

/-- The loop over Words in plain cells writes what the Words say, and ends before it comes to `KBDR_ADDR`. -/
theorem stringLoop_of_holds {s : State} {a : Word} {ws : List Word} {bs : List Byte} {n : Nat} (hs : s.holds a ws)
    (hbs : wordsWritten bytes ws = some bs) (hn : (s.cfg.kbdrAddr - a).toNat < n) :
    stringLoop bytes n a s = .done (s.writeOutputChars bs) := by
  induction ws generalizing s a bs n with
  | nil => simp [wordsWritten] at hbs
  | cons w ws ih =>
    obtain ⟨hdev, hcell, hrest⟩ := hs
    obtain ⟨hstatus, hdata⟩ := not_or.1 hdev
    have hread := State.memRead_plain hstatus hdata
    rw [hcell] at hread
    have hdist := distance_step hdata
    obtain ⟨n, rfl⟩ : ∃ m, n = m + 1 := ⟨n - 1, by omega⟩
    cases hgo : (bytes w).2 with
    | false =>
      obtain rfl : (bytes w).1 = bs := by simpa [wordsWritten, hgo] using hbs
      rw [stringLoop_stop hread hgo, State.writeOutputChars_eq]
    | true =>
      obtain ⟨cs, hcs, rfl⟩ : ∃ cs, wordsWritten bytes ws = some cs ∧ (bytes w).1 ++ cs = bs := by
        simpa [wordsWritten, hgo] using hbs
      have hrest' : State.holds { s with out := s.out ++ (bytes w).1 } (a + 1) ws :=
        State.holds_congr hrest _ rfl rfl
      have hloop := ih (n := n) hrest' hcs (by show (s.cfg.kbdrAddr - (a + 1)).toNat < n; omega)
      rw [stringLoop_more hread hgo, hloop, State.writeOutputChars_eq, State.writeOutputChars_eq, List.append_assoc]

/-- A string routine over Words in plain cells completes and writes what the Words say. -/
theorem stringRoutine_writes {s : State} {a : Word} {ws : List Word} {bs : List Byte} (hs : s.holds a ws)
    (hbs : wordsWritten bytes ws = some bs) :
    ∃ t, s.finish (stringLoop bytes (s.enterTrap.stringFuel a) a s.enterTrap) = .next t ∧ WritesOutputOnly bs s t := by
  have hfuel : (s.enterTrap.cfg.kbdrAddr - a).toNat < s.enterTrap.stringFuel a := by
    simp only [State.stringFuel]; omega
  have hs' : s.enterTrap.holds a ws := State.holds_congr hs _ rfl rfl
  rw [stringLoop_of_holds hs' hbs hfuel]
  exact ⟨_, rfl, s.enterTrap_writeOutputChars_only bs⟩

/-- Settles O48: a non-zero Word writes its low byte and goes on, the zero Word exits and writes nothing. -/
theorem putsWritesString : Obligations.PutsWritesString := by
  intro s ws hws hs
  have hgo : ∀ v ∈ ws, putsBytes v = ([v.extractLsb' 0 8], true) := fun v hv => if_neg (hws v hv)
  have hwritten := wordsWritten_append (w := 0) (bs := []) hgo rfl
  rw [List.append_nil, ← List.map_eq_flatMap] at hwritten
  exact stringRoutine_writes hs hwritten

/-! PUTSP under its two settings. -/

theorem putspBytes_zeroByte (w : Word) :
    putspBytes .zeroByte w =
      if w.extractLsb' 0 8 = 0 then ([], false)
      else if w.extractLsb' 8 8 = 0 then ([w.extractLsb' 0 8], false)
      else ([w.extractLsb' 0 8, w.extractLsb' 8 8], true) := rfl

theorem putspBytes_zeroWord {w : Word} (h : w ≠ 0) :
    putspBytes .zeroWord w =
      (if w.extractLsb' 8 8 = 0 then [w.extractLsb' 0 8] else [w.extractLsb' 0 8, w.extractLsb' 8 8], true) := by
  rw [putspBytes, if_neg h, ← apply_ite (·, true)]

/-- Both settings exit at the zero Word and write nothing of it. -/
theorem putspBytes_zero (stop : PutspStop) : putspBytes stop 0 = ([], false) := by
  cases stop <;> rfl

/-- Settles O50: for each setting, the Words before the last go on, and the last exits. -/
theorem putspOnAnyString : Obligations.PutspOnAnyString := by
  intro s ws
  rw [exec_putsp_eq]
  refine ⟨fun w hstop hws hw hs => ?_, fun hstop hws hs => ?_⟩ <;> rw [hstop]
  · refine stringRoutine_writes hs (wordsWritten_append (fun v hv => ?_) ?_)
    · obtain ⟨hlo, hhi⟩ := hws v hv
      rw [putspBytes_zeroByte, if_neg hlo, if_neg hhi]
    · rw [putspBytes_zeroByte]
      by_cases hlo : w.extractLsb' 0 8 = 0
      · rw [if_pos hlo, if_pos hlo]
      · rw [if_neg hlo, if_neg hlo, if_pos (hw.resolve_left hlo)]
  · have hwritten := wordsWritten_append (fun v hv => putspBytes_zeroWord (hws v hv)) (putspBytes_zero .zeroWord)
    rw [List.append_nil] at hwritten
    exact stringRoutine_writes hs hwritten

/-! Packed strings: every packed Word has a low byte that is no zero. -/

/-- R175: a full Word writes both of its characters and goes on. -/
theorem putspBytes_append {lo hi : Byte} (stop : PutspStop) (hlo : lo ≠ 0) (hhi : hi ≠ 0) :
    putspBytes stop (hi ++ lo : Word) = ([lo, hi], true) := by
  have elo : (hi ++ lo : Word).extractLsb' 0 8 = lo := BitVec.extractLsb'_append_eq_right
  have ehi : (hi ++ lo : Word).extractLsb' 8 8 = hi := BitVec.extractLsb'_append_eq_left
  cases stop with
  | zeroByte => rw [putspBytes_zeroByte, elo, ehi, if_neg hlo, if_neg hhi]
  | zeroWord =>
    have hw : (hi ++ lo : Word) ≠ 0 := fun h => hlo (by rw [← elo, h]; rfl)
    rw [putspBytes_zeroWord hw, elo, ehi, if_neg hhi]

/-- R8: zero-extending is placing at bit 0. -/
theorem zext8_eq_place (c : Byte) : zext8 c = place 0 c := (BitVec.shiftLeft_zero _).symm

/-- R175: a last odd character is written, and one setting exits with it. -/
theorem putspBytes_zext8 {lo : Byte} (stop : PutspStop) (hlo : lo ≠ 0) :
    putspBytes stop (zext8 lo) = ([lo], stop == .zeroWord) := by
  have elo : (zext8 lo).extractLsb' 0 8 = lo := by simp [zext8_eq_place]
  have ehi : (zext8 lo).extractLsb' 8 8 = 0 := by simp [zext8_eq_place]
  cases stop with
  | zeroByte => rw [putspBytes_zeroByte, elo, ehi, if_neg hlo, if_pos rfl]; rfl
  | zeroWord =>
    have hw : zext8 lo ≠ 0 := fun h => hlo (by rw [← elo, h]; rfl)
    rw [putspBytes_zeroWord hw, elo, ehi, if_pos rfl]; rfl

theorem wordsWritten_packChars {cs : List Byte} (stop : PutspStop) (hcs : ∀ c ∈ cs, c ≠ 0) :
    wordsWritten (putspBytes stop) (packChars cs ++ [0]) = some cs := by
  have hzero := wordsWritten_stop [] (putspBytes_zero stop)
  induction cs using packChars.induct with
  | case1 => exact hzero
  | case2 lo =>
    have hlast := putspBytes_zext8 stop (hcs lo (by simp))
    cases stop with
    | zeroByte => exact wordsWritten_stop [0] hlast
    | zeroWord => exact wordsWritten_more hlast hzero
  | case3 lo hi cs ih =>
    have hfull := putspBytes_append stop (hcs lo (by simp)) (hcs hi (by simp))
    exact wordsWritten_more hfull (ih fun c hc => hcs c (by simp [hc]))

/-- Settles O49, Word by Word: each writes the characters packed in it, and the zero Word ends the string if the last
character did not. -/
theorem putspWritesPackedString : Obligations.PutspWritesPackedString := by
  intro s cs hcs hs
  rw [exec_putsp_eq]
  exact stringRoutine_writes hs (wordsWritten_packChars s.cfg.putspStop hcs)

end Sys2Proof.Machine
end

section
/-! PROOF. R9, R22, R27, R35, R50: what an instruction writes, effect by effect. An instruction that waits moves pc
alone; one that completes is a TRAP, whose routine says what it writes, or no TRAP. -/

namespace Sys2Proof.Machine

/-! Which vector a TRAP of Safety.lean's lists runs. -/

section
variable {i : Instr} {v : BitVec 8}

theorem readsChar_of_trapVector (h : trapVector i = some v) : i.readsChar ↔ v = 0x20 ∨ v = 0x23 := by
  cases i <;> cases h <;> simp [Instr.readsChar]

theorem not_readsChar_of_trapVector (h : trapVector i = none) : ¬ i.readsChar := by
  rintro (rfl | rfl | rfl | rfl) <;> cases h

theorem writesOutput_of_trapVector (h : trapVector i = some v) : i.writesOutput ↔ v ∈ [0x21, 0x22, 0x23, 0x24] := by
  cases i <;> cases h <;> simp [Instr.writesOutput]

theorem flagReg_of_trapVector (h : trapVector i = some v) : i.flagReg = none := by
  cases i <;> cases h <;> rfl

theorem regsWritten_of_trapVector (h : trapVector i = some v) :
    i.regsWritten = if v = 0x20 ∨ v = 0x23 then [.r7, .r0] else [.r7] := by
  cases i <;> cases h <;> rfl

end

/-- Settles O21: an instruction that completes is a TRAP, which writes COND in its input routines only, or none, which
writes it with the result. -/
theorem condFollowsResult : Obligations.CondFollowsResult := by
  intro i s t h
  obtain ⟨ht, hl⟩ | hc := exec_cases h
  · exact .inl ⟨hl, ht⟩
  right
  cases hv : trapVector i with
  | none =>
    obtain ⟨-, -, -, -, -, -, -, -, hflag, hkept, -⟩ := plain_frame hv hc
    exact ⟨hflag, fun hr => absurd hr (not_readsChar_of_trapVector hv), fun hf _ => hkept hf⟩
  | some v =>
    obtain ⟨-, -, -, -, -, -, -, -, -, -, -, -, hset, hkept⟩ := routine_frame (completes_trap hv hc)
    rw [flagReg_of_trapVector hv, readsChar_of_trapVector hv]
    exact ⟨nofun, hset, fun _ => hkept⟩

/-- Settles O23: a TRAP writes R7 on entry, and R0 in its input routines. -/
theorem onlyListedRegistersChange : Obligations.OnlyListedRegistersChange := by
  intro i s t h r hr
  obtain ⟨rfl, -⟩ | hc := exec_cases h
  · rfl
  cases hv : trapVector i with
  | none =>
    obtain ⟨-, -, -, -, hregs, -⟩ := plain_frame hv hc
    exact hregs r hr
  | some v =>
    obtain ⟨-, -, -, -, -, -, hregs, -⟩ := routine_frame (completes_trap hv hc)
    rw [regsWritten_of_trapVector hv] at hr
    have h7 : r ≠ .r7 := by rintro rfl; split at hr <;> simp at hr
    have h0 : r = .r0 → v ≠ 0x20 ∧ v ≠ 0x23 := by
      rintro rfl
      rw [← not_or]
      intro hin
      rw [if_pos hin] at hr
      simp at hr
    exact (hregs r h0).trans ((State.x_setX s .r7 r s.pc).trans (if_neg h7))

/-- Settles O24: reads and routines store into the hidden data cell at most. -/
theorem onlyStoresChangeMemory : Obligations.OnlyStoresChangeMemory := by
  intro i s t hst hsti hstr h a ha
  have ha : a ≠ s.cfg.kbdrAddr := by simpa using ha
  obtain ⟨rfl, -⟩ | hc := exec_cases h
  · rfl
  cases hv : trapVector i with
  | none =>
    obtain ⟨-, -, -, -, -, -, -, -, -, -, hcells, -⟩ := plain_frame hv hc
    exact hcells hst hsti hstr a ha
  | some v =>
    obtain ⟨-, -, -, -, -, hcells, -⟩ := routine_frame (completes_trap hv hc)
    exact hcells a ha

/-- Settles O25: of the routines only those of the four vectors write. -/
theorem onlyConsoleRoutinesWriteOutput : Obligations.OnlyConsoleRoutinesWriteOutput := by
  intro i s t h hw
  obtain ⟨rfl, -⟩ | hc := exec_cases h
  · rfl
  cases hv : trapVector i with
  | none =>
    obtain ⟨-, -, -, hout, -⟩ := plain_frame hv hc
    exact hout
  | some v =>
    obtain ⟨-, -, -, -, -, -, -, -, hout, -⟩ := routine_frame (completes_trap hv hc)
    rw [writesOutput_of_trapVector hv] at hw
    exact hout hw

end Sys2Proof.Machine
end

section
/-! PROOF. Log entry 1: a memory in canonical form is determined by its cells. -/

namespace Sys2Proof.Machine

theorem Memory.lookup_eq_none {m : Memory} {a : Nat} (h : ∀ p ∈ m, a < p.1) : m.lookup a = none := by
  induction m with
  | nil => rfl
  | cons p m ih =>
    obtain ⟨b, w⟩ := p
    have hab : a < b := h _ List.mem_cons_self
    rw [Memory.lookup_cons, if_neg (by omega), ih fun q hq => h q (List.mem_cons_of_mem _ hq)]

/-- In a list with rising addresses, what is listed for an address is what a lookup finds. -/
theorem Memory.lookup_eq_some_iff {m : Memory} (hs : m.Pairwise fun p q => p.1 < q.1) {a : Nat} {v : Word} :
    m.lookup a = some v ↔ (a, v) ∈ m := by
  induction m with
  | nil => simp
  | cons p m ih =>
    obtain ⟨b, w⟩ := p
    obtain ⟨hb, hm⟩ := List.pairwise_cons.1 hs
    rw [Memory.lookup_cons, List.mem_cons, Prod.mk.injEq, ← ih hm]
    split
    · next hab =>
      subst hab
      rw [Memory.lookup_eq_none hb]
      simp [eq_comm]
    · next hab => simp [hab]

theorem Memory.nodup {m : Memory} (hs : m.Pairwise fun p q => p.1 < q.1) : m.Nodup :=
  hs.imp fun hlt he => absurd (congrArg Prod.fst he) hlt.ne

/-- An entry of a canonical memory is an entry of every canonical memory with the same cells. -/
theorem Memory.mem_of_get_eq {fill : Word} {m m' : Memory} (hm : m.wf fill) (hm' : m'.wf fill)
    (h : ∀ a, m.get fill a = m'.get fill a) {p : Nat × Word} (hp : p ∈ m) : p ∈ m' := by
  obtain ⟨a, v⟩ := p
  obtain ⟨hs, hcells⟩ := hm
  obtain ⟨ha, hv⟩ := hcells _ hp
  have hlookup := (Memory.lookup_eq_some_iff hs).2 hp
  have hget := h (BitVec.ofNat 16 a)
  rw [Memory.get, Memory.get, BitVec.toNat_ofNat, Nat.mod_eq_of_lt ha, hlookup, Option.getD_some] at hget
  refine (Memory.lookup_eq_some_iff hm'.1).1 ?_
  cases hl : m'.lookup a with
  | none => exact absurd (by rw [hget, hl, Option.getD_none]) hv
  | some u => rw [hget, hl, Option.getD_some]

/-- Settles O27: the two lists have the same entries, in the same order. -/
theorem canonicalMemoryIsUnique : Obligations.CanonicalMemoryIsUnique := by
  intro fill m m' hm hm' h
  have hmem : ∀ p, p ∈ m ↔ p ∈ m' := fun p =>
    ⟨Memory.mem_of_get_eq hm hm' h, Memory.mem_of_get_eq hm' hm fun a => (h a).symm⟩
  have hperm := (List.perm_ext_iff_of_nodup (Memory.nodup hm.1) (Memory.nodup hm'.1)).2 hmem
  exact hperm.eq_of_pairwise (fun _ _ _ _ hlt hgt => absurd hlt hgt.asymm) hm.1 hm'.1

end Sys2Proof.Machine
end

section
/-! PROOF. R49, decision D12: a write to a keyboard register's address is invisible. Every operation run in two states
that agree but for the hidden cells ends alike, or in states that agree so again. -/

namespace Sys2Proof.Machine

/-- `s` with `m` as its memory. -/
def State.withMem (s : State) (m : Memory) : State := { s with mem := m }

/-- Ends of two runs that agree but for the hidden cells: the same end, or ends in such states. `f` makes an end of a
state: `Host.Outcome.next` of an instruction, `Routine.done` of a trap routine. -/
inductive EndsAgree {α : Type} (f : State → α) : α → α → Prop where
  | same (x : α) : EndsAgree f x x
  | agree {s t : State} (h : AgreeButHidden s t) : EndsAgree f (f s) (f t)

section
variable {s t : State}

theorem AgreeButHidden.refl (s : State) : AgreeButHidden s s :=
  ⟨rfl, rfl, rfl, rfl, rfl, rfl, rfl, rfl, fun _ _ => rfl⟩

/-- Two such states are one state with two memories. -/
theorem AgreeButHidden.exists_mem (h : AgreeButHidden s t) :
    ∃ m, t = s.withMem m ∧ ∀ a, ¬ s.isDevice a → (s.withMem m).cell a = s.cell a := by
  obtain ⟨hcfg, hgpr, hpc, hcond, hrun, hinq, hout, harr, hcell⟩ := h
  have ht : t = s.withMem t.mem := by
    simp only [State.withMem, ← hcfg, ← hgpr, ← hpc, ← hcond, ← hrun, ← hinq, ← hout, ← harr]
  exact ⟨t.mem, ht, fun a ha => ht ▸ hcell a ha⟩

theorem AgreeButHidden.pc_eq (h : AgreeButHidden s t) : t.pc = s.pc := by
  obtain ⟨-, -, hpc, -⟩ := h
  exact hpc

/-! The shared operations. -/

theorem AgreeButHidden.setPc (h : AgreeButHidden s t) (a : Word) : AgreeButHidden (s.setPc a) (t.setPc a) := by
  obtain ⟨m, rfl, hcell⟩ := h.exists_mem
  exact ⟨rfl, rfl, rfl, rfl, rfl, rfl, rfl, rfl, hcell⟩

theorem AgreeButHidden.setX (h : AgreeButHidden s t) (r : Reg) (v : Word) :
    AgreeButHidden (s.setX r v) (t.setX r v) := by
  obtain ⟨m, rfl, hcell⟩ := h.exists_mem
  exact ⟨rfl, rfl, rfl, rfl, rfl, rfl, rfl, rfl, hcell⟩

theorem AgreeButHidden.writeResult (h : AgreeButHidden s t) (r : Reg) (v : Word) :
    AgreeButHidden (s.writeResult r v) (t.writeResult r v) := by
  obtain ⟨m, rfl, hcell⟩ := h.exists_mem
  exact ⟨rfl, rfl, rfl, rfl, rfl, rfl, rfl, rfl, hcell⟩

theorem AgreeButHidden.haltWith (h : AgreeButHidden s t) (r : HaltReason) :
    AgreeButHidden (s.haltWith r) (t.haltWith r) := by
  obtain ⟨m, rfl, hcell⟩ := h.exists_mem
  exact ⟨rfl, rfl, rfl, rfl, rfl, rfl, rfl, rfl, hcell⟩

theorem AgreeButHidden.setCell (h : AgreeButHidden s t) (a v : Word) :
    AgreeButHidden (s.setCell a v) (t.setCell a v) := by
  obtain ⟨m, rfl, hcell⟩ := h.exists_mem
  refine ⟨rfl, rfl, rfl, rfl, rfl, rfl, rfl, rfl, fun b hb => ?_⟩
  rw [State.cell_setCell, State.cell_setCell, hcell b hb]

/-- New streams: input taken or arrived, output written. -/
theorem AgreeButHidden.withStreams (h : AgreeButHidden s t) (inq out : List Byte) (arrivals : List (List Byte)) :
    AgreeButHidden { s with inq := inq, out := out, arrivals := arrivals }
      { t with inq := inq, out := out, arrivals := arrivals } := by
  obtain ⟨m, rfl, hcell⟩ := h.exists_mem
  exact ⟨rfl, rfl, rfl, rfl, rfl, rfl, rfl, rfl, hcell⟩

theorem AgreeButHidden.inputToR0 (h : AgreeButHidden s t) (c : Byte) :
    AgreeButHidden (s.inputToR0 c) (t.inputToR0 c) := by
  obtain ⟨m, rfl, hcell⟩ := h.exists_mem
  rw [State.inputToR0_eq, State.inputToR0_eq]
  exact ⟨rfl, rfl, rfl, rfl, rfl, rfl, rfl, rfl, hcell⟩

theorem State.arrive_of_cons {bs : List Byte} {rest : List (List Byte)} (h : s.arrivals = bs :: rest) :
    s.arrive = { s with inq := s.inq ++ bs, arrivals := rest } := by
  simp [State.arrive, h, State.deliver]

/-- R44 to R47: reads wait alike and answer alike. -/
theorem AgreeButHidden.memRead_cases (h : AgreeButHidden s t) (a : Word) :
    (s.memRead a = none ∧ t.memRead a = none) ∨
      ∃ w u v, s.memRead a = some (w, u) ∧ t.memRead a = some (w, v) ∧ AgreeButHidden u v := by
  obtain ⟨m, rfl, hcell⟩ := h.exists_mem
  obtain ⟨hs, e⟩ | ⟨hs, hd, hq, e⟩ | ⟨hs, hd, c, rest, hq, e⟩ | ⟨hs, hd, e⟩ := s.memRead_cases a
  · exact .inr ⟨_, _, _, e, State.memRead_status (s := s.withMem m) hs, h⟩
  · exact .inl ⟨e, State.memRead_data_nil (s := s.withMem m) hs hd hq⟩
  · exact .inr ⟨_, _, _, e, State.memRead_data_cons (s := s.withMem m) hs hd hq,
      (h.setCell s.cfg.kbdrAddr (zext8 c)).withStreams rest s.out s.arrivals⟩
  · have hread := State.memRead_plain (s := s.withMem m) hs hd
    rw [hcell a (not_or.2 ⟨hs, hd⟩)] at hread
    exact .inr ⟨_, _, _, e, hread, h⟩

/-- What goes on with a read ends alike if it does so with the same Word. -/
theorem AgreeButHidden.afterRead (h : AgreeButHidden s t) {u v : State} (huv : AgreeButHidden u v) {a : Word}
    {k k' : Word → State → Host.Outcome State Fault Refusal}
    (hk : ∀ w u' v', AgreeButHidden u' v' → EndsAgree .next (k w u') (k' w v')) :
    EndsAgree .next (s.afterRead (u.memRead a) k) (t.afterRead (v.memRead a) k') := by
  obtain ⟨hu, hv⟩ | ⟨w, u', v', hu, hv, hagree⟩ := huv.memRead_cases a <;> rw [hu, hv]
  · rw [State.afterRead_none, State.afterRead_none, h.pc_eq]
    exact .agree (h.setPc _)
  · exact hk w u' v' hagree

theorem AgreeButHidden.fetch_cases (h : AgreeButHidden s t) :
    (s.fetch = none ∧ t.fetch = none) ∨
      ∃ ir u v, s.fetch = some (ir, u) ∧ t.fetch = some (ir, v) ∧ AgreeButHidden u v := by
  rw [State.fetch_eq, State.fetch_eq, h.pc_eq]
  obtain ⟨hs, ht⟩ | ⟨ir, u, v, hs, ht, hagree⟩ := h.memRead_cases s.pc <;> rw [hs, ht]
  · exact .inl ⟨rfl, rfl⟩
  · exact .inr ⟨ir, _, _, rfl, rfl, hagree.setPc _⟩

/-! The trap routines. -/

theorem AgreeButHidden.inputRoutine (h : AgreeButHidden s t) (echo : Bool) :
    EndsAgree .done (inputRoutine s echo) (inputRoutine t echo) := by
  obtain ⟨m, rfl, -⟩ := h.exists_mem
  cases hq : s.inq with
  | nil =>
    rw [inputRoutine_waits hq, inputRoutine_waits (s := s.withMem m) hq]
    exact .same _
  | cons c rest =>
    rw [inputRoutine_done echo hq, inputRoutine_done (s := s.withMem m) echo hq]
    exact .agree ((h.withStreams rest (if echo then s.out ++ [c] else s.out) s.arrivals).inputToR0 c)

theorem AgreeButHidden.stringLoop (bytes : Word → List Byte × Bool) (n : Nat) (a : Word) {s t : State}
    (h : AgreeButHidden s t) : EndsAgree .done (stringLoop bytes n a s) (stringLoop bytes n a t) := by
  induction n generalizing a s t with
  | zero => exact .same _
  | succ n ih =>
    obtain ⟨hs, ht⟩ | ⟨w, u, v, hs, ht, hagree⟩ := h.memRead_cases a
    · rw [stringLoop_waits hs, stringLoop_waits ht]
      exact .same _
    · obtain ⟨m, rfl, -⟩ := hagree.exists_mem
      have hwritten := hagree.withStreams u.inq (u.out ++ (bytes w).1) u.arrivals
      cases hgo : (bytes w).2 with
      | false =>
        rw [stringLoop_stop hs hgo, stringLoop_stop ht hgo]
        exact .agree hwritten
      | true =>
        rw [stringLoop_more hs hgo, stringLoop_more ht hgo]
        exact ih (a + 1) hwritten

theorem AgreeButHidden.trapRoutine (h : AgreeButHidden s t) (v : BitVec 8) :
    EndsAgree .done (trapRoutine s v) (trapRoutine t v) := by
  obtain ⟨m, rfl, hcell⟩ := h.exists_mem
  unfold Machine.trapRoutine
  split_ifs
  · exact h.inputRoutine false
  · exact .agree (h.withStreams s.inq (s.out ++ [(s.x .r0).extractLsb' 0 8]) s.arrivals)
  · exact h.stringLoop putsBytes _ _
  · rw [inRoutine, inRoutine, State.writeOutputChars_eq, State.writeOutputChars_eq]
    exact (h.withStreams s.inq (s.out ++ s.cfg.inPrompt) s.arrivals).inputRoutine true
  · exact h.stringLoop (putspBytes s.cfg.putspStop) _ _
  · exact .agree (h.haltWith _)
  · exact .agree (h.haltWith _)

theorem AgreeButHidden.finish (h : AgreeButHidden s t) {r r' : Routine} (hr : EndsAgree .done r r') :
    EndsAgree .next (s.finish r) (t.finish r') := by
  cases hr with
  | agree hend => exact .agree hend
  | same =>
    cases r with
    | done u => exact .same _
    | waits =>
      rw [State.finish_waits, State.finish_waits, h.pc_eq]
      exact .agree (h.setPc _)
    | neverEnds => exact .same _

/-! The instructions and the step. -/

theorem AgreeButHidden.exec_trap (h : AgreeButHidden s t) (v : BitVec 8) :
    EndsAgree .next (exec (.trap v) s) (exec (.trap v) t) := by
  have henter : AgreeButHidden s.enterTrap t.enterTrap := by
    rw [State.enterTrap, State.enterTrap, h.pc_eq]
    exact h.setX _ _
  exact h.finish (henter.trapRoutine v)

theorem AgreeButHidden.exec (h : AgreeButHidden s t) (i : Instr) : EndsAgree .next (exec i s) (exec i t) := by
  cases i with
  | trap v => exact h.exec_trap v
  | getc => exact h.exec_trap 0x20
  | out => exact h.exec_trap 0x21
  | puts => exact h.exec_trap 0x22
  | inChar => exact h.exec_trap 0x23
  | putsp => exact h.exec_trap 0x24
  | halt => exact h.exec_trap 0x25
  | ld | ldr =>
    obtain ⟨m, rfl, -⟩ := h.exists_mem
    exact h.afterRead h fun _ _ _ hagree => .agree (hagree.writeResult _ _)
  | ldi =>
    obtain ⟨m, rfl, -⟩ := h.exists_mem
    exact h.afterRead h fun _ _ _ hptr => h.afterRead hptr fun _ _ _ hagree => .agree (hagree.writeResult _ _)
  | sti r off =>
    obtain ⟨m, rfl, -⟩ := h.exists_mem
    refine h.afterRead h fun ea u v hptr => ?_
    obtain ⟨m', rfl, -⟩ := hptr.exists_mem
    exact .agree (hptr.setCell ea (u.x r))
  | st | str =>
    obtain ⟨m, rfl, -⟩ := h.exists_mem
    exact .agree (h.setCell _ _)
  | addReg | addImm | andReg | andImm | not | lea =>
    obtain ⟨m, rfl, -⟩ := h.exists_mem
    exact .agree (h.writeResult _ _)
  | rti | res => exact .agree (h.haltWith _)
  | jmp =>
    obtain ⟨m, rfl, -⟩ := h.exists_mem
    exact .agree (h.setPc _)
  | jsr | jsrr =>
    obtain ⟨m, rfl, -⟩ := h.exists_mem
    exact .agree ((h.setX .r7 s.pc).setPc _)
  | br n z p off =>
    obtain ⟨m, rfl, -⟩ := h.exists_mem
    have hbr := exec_br n z p off (s.withMem m)
    rw [exec_br, hbr]
    cases hb : branchTaken n z p s.cond with
    | true => simpa [State.withMem, hb] using .agree (h.setPc _)
    | false => simpa [State.withMem, hb] using .agree h

theorem AgreeButHidden.arrive (h : AgreeButHidden s t) : AgreeButHidden s.arrive t.arrive := by
  obtain ⟨m, rfl, -⟩ := h.exists_mem
  cases harr : s.arrivals with
  | nil => rwa [State.arrive_of_nil harr, State.arrive_of_nil (s := s.withMem m) harr]
  | cons bs rest =>
    rw [State.arrive_of_cons harr, State.arrive_of_cons (s := s.withMem m) harr]
    exact h.withStreams (s.inq ++ bs) s.out rest

/-- R49: a step of two states that agree but for the hidden cells. -/
theorem AgreeButHidden.step (h : AgreeButHidden s t) : EndsAgree .next (step s) (step t) := by
  have hrun : t.run = s.run := by obtain ⟨-, -, -, -, hrun, -⟩ := h; exact hrun
  cases hs : s.run with
  | halted r =>
    rw [step_halted hs, step_halted (hrun.trans hs)]
    exact .agree h
  | running =>
    have ht := hrun.trans hs
    obtain ⟨hfs, hft⟩ | ⟨ir, u, v, hfs, hft, hagree⟩ := h.arrive.fetch_cases
    · rw [step_of_no_fetch hs hfs, step_of_no_fetch ht hft]
      exact .agree h.arrive
    · rw [step_of_fetch hs hfs, step_of_fetch ht hft]
      exact hagree.exec _

end

/-- Settles O26: the write is a store into a hidden cell, and states that agree but for these read and step alike. -/
theorem reservedWriteIsInvisible : Obligations.ReservedWriteIsInvisible := by
  refine ⟨fun s a v ha => ?_, fun s t h => ⟨fun b => ?_, fun s' hs => ?_, fun f hf => ?_⟩⟩
  · refine ⟨rfl, rfl, rfl, rfl, rfl, rfl, rfl, rfl, fun b hb => ?_⟩
    have hne : b ≠ a := fun he => hb (he ▸ ha)
    exact (State.cell_setCell s a v b).trans (if_neg hne)
  · obtain ⟨hs, ht⟩ | ⟨w, u, v, hs, ht, -⟩ := h.memRead_cases b <;> rw [hs, ht]; rfl
  · have hstep := h.step
    rw [hs] at hstep
    generalize ht : step t = o at hstep
    cases hstep with
    | same => exact ⟨s', rfl, .refl s'⟩
    | agree hagree => exact ⟨_, rfl, hagree⟩
  · have hstep := h.step
    rw [hf] at hstep
    generalize ht : step t = o at hstep
    cases hstep with
    | same => rfl

end Sys2Proof.Machine
end

section
/-! PROOF. R200 to R208: a step of a RUNNING core is the arrival of input, a `MemRead` at pc, the increment of pc and
the instruction of the Word read; what a step leaves follows from what its three parts leave. -/

namespace Sys2Proof.Machine
open Encoding

/-! The step of a RUNNING core. -/

section
variable {s : State}

/-- R202: a step whose fetch completes. -/
theorem step_of_memRead {ir : Word} {u : State} (hs : s.run = .running) (h : s.arrive.memRead s.pc = some (ir, u)) :
    step s = exec (decode ir) (u.setPc (s.pc + 1)) := by
  refine step_of_fetch hs ?_
  rw [State.fetch_eq, State.arrive_pc, h, Option.map_some]

theorem step_plain (hs : s.run = .running) (hdev : ¬ s.isDevice s.pc) :
    step s = exec (decode (s.cell s.pc)) (s.arrive.setPc (s.pc + 1)) := by
  obtain ⟨hstatus, hdata⟩ := not_or.1 hdev
  have hread : s.arrive.memRead s.pc = some (s.arrive.cell s.pc, s.arrive) :=
    State.memRead_plain (by rwa [State.arrive_cfg]) (by rwa [State.arrive_cfg])
  rw [State.arrive_cell] at hread
  exact step_of_memRead hs hread

/-- Settles O10, by what the `MemRead` at pc answers. -/
theorem stepRunsDecodedInstruction : Obligations.StepRunsDecodedInstruction := by
  intro s hs
  refine ⟨fun hstatus hdata => step_plain hs (not_or.2 ⟨hstatus, hdata⟩), fun hstatus => ?_,
    fun hstatus hdata hinq => ?_, fun hstatus hdata c rest hinq => ?_⟩
  · exact step_of_memRead hs (State.memRead_status (by rwa [State.arrive_cfg]))
  · refine step_of_no_fetch hs ?_
    rw [State.fetch_eq, State.memRead_data_nil (by simpa using hstatus) (by simpa using hdata) hinq, Option.map_none]
  · rw [step_of_memRead hs
      (State.memRead_data_cons (by rwa [State.arrive_cfg]) (by rwa [State.arrive_cfg]) hinq), State.arrive_cfg, ← hdata]
    rfl

/-- Settles O11: the decoder gives the instruction back. -/
theorem encodedInstructionRuns : Obligations.EncodedInstructionRuns := by
  intro s i hs hdev hwf hcell
  rw [step_plain hs hdev, hcell, decodeInvertsEncode i hwf]

end

/-! What a wait leaves of the fetch. -/

/-- A byte fetched from the data address is a BR that is never taken. -/
theorem decode_zext8 (c : Byte) : ∃ off, decode (zext8 c) = .br false false false off := by
  have hop : fieldOpcode (zext8 c) = opBr := by simp [zext8_eq_place, fieldOpcode]
  refine ⟨fieldOffset9 (zext8 c), ?_⟩
  rw [decode_opBr hop]
  simp [zext8_eq_place, place_getElem]

/-- R182, R207: putting pc back after a fetch leaves the state before it, unless the fetch took an input byte; then the
Word is a BR that is never taken, and cannot wait. -/
theorem State.fetch_undone {s u : State} {ir : Word} (h : s.fetch = some (ir, u)) :
    u.setPc (u.pc - 1) = s ∨ ∃ off, decode ir = .br false false false off := by
  obtain ⟨t, hread, rfl⟩ := State.fetch_some h
  obtain ⟨-, e⟩ | ⟨-, -, -, e⟩ | ⟨-, -, c, rest, -, e⟩ | ⟨-, -, e⟩ := s.memRead_cases s.pc <;> rw [e] at hread <;>
    cases hread
  · exact .inl (by simp)
  · exact .inr (decode_zext8 c)
  · exact .inl (by simp)

theorem State.fetch_pc {s u : State} {ir : Word} (h : s.fetch = some (ir, u)) : u.pc = s.pc + 1 := by
  obtain ⟨t, -, rfl⟩ := State.fetch_some h
  rfl

theorem State.fetch_cond {s u : State} {ir : Word} (h : s.fetch = some (ir, u)) : u.cond = s.cond := by
  obtain ⟨t, hread, rfl⟩ := State.fetch_some h
  obtain ⟨-, -, hcond, -⟩ := State.memRead_frame hread
  exact hcond

/-- R24: an instruction that completes writes pc only if it is a taken BR, JMP, JSR or JSRR. -/
theorem Completes.pc_eq {i : Instr} {s t : State} (h : Completes i s t)
    (hbr : ∀ n z p off, i = .br n z p off → branchTaken n z p s.cond = false) (hjmp : ∀ b, i ≠ .jmp b)
    (hjsr : ∀ o, i ≠ .jsr o) (hjsrr : ∀ b, i ≠ .jsrr b) : t.pc = s.pc := by
  cases hv : trapVector i with
  | some v =>
    obtain ⟨-, -, hpc, -⟩ := routine_frame (completes_trap hv h)
    exact hpc
  | none =>
    by_cases hi : ∃ n z p off, i = .br n z p off
    · obtain ⟨n, z, p, off, rfl⟩ := hi
      have ht : t = if branchTaken n z p s.cond then s.setPc (s.pcRel9 off) else s := h
      rw [ht, hbr n z p off rfl, if_neg Bool.false_ne_true]
    · obtain ⟨-, -, -, -, -, -, -, -, -, -, -, hpc⟩ := plain_frame hv h
      exact hpc (fun n z p off he => hi ⟨n, z, p, off, he⟩) hjmp hjsr hjsrr

/-- Settles O17: the fetch increments pc; the instruction completes and keeps it, or waits and undoes the fetch. -/
theorem pcIsIncrementedAndKept : Obligations.PcIsIncrementedAndKept := by
  intro s u t ir hs hf h
  have hpc : u.pc = s.pc + 1 := by rw [State.fetch_pc hf, State.arrive_pc]
  have hcond : u.cond = s.cond := by rw [State.fetch_cond hf, State.arrive_cond]
  rw [step_of_fetch hs hf] at h
  refine ⟨hpc, fun hbr hjmp hjsr hjsrr => ?_⟩
  obtain ⟨ht, hl⟩ | hc := exec_cases h
  · obtain he | ⟨off, he⟩ := State.fetch_undone hf
    · exact .inr ⟨hl, ht.trans he⟩
    · rw [he] at hl
      exact hl.elim
  · rw [← hcond] at hbr
    exact .inl ((hc.pc_eq hbr hjmp hjsr hjsrr).trans hpc)

/-- Settles O18: a BR that is never taken leaves pc incremented, so it is no wait. -/
theorem waitingStepChangesNothing : Obligations.WaitingStepChangesNothing := by
  intro s u v ir hs hf h hw
  rw [step_of_fetch hs hf, h]
  obtain he | ⟨off, he⟩ := State.fetch_undone hf
  · exact congrArg _ (Eq.trans hw he)
  · have hnot : ¬ branchTaken false false false u.cond = true := by simp [branchTaken_iff]
    rw [he, exec_br, if_neg hnot] at h
    cases h
    have hpc : u.pc = u.pc - 1 := congrArg State.pc hw
    exact absurd hpc (by bv_omega)

/-! Input that never comes, and the streams. -/

/-- GETC and IN without input leave the state in which they began to be fetched. -/
theorem step_waits {s : State} {i : Instr} (hi : i = .getc ∨ i = .inChar) (hs : s.run = .running)
    (hdev : ¬ s.isDevice s.pc) (hcell : s.cell s.pc = encode i) (hinq : s.inq = []) (harr : s.arrivals = []) :
    step s = .next s := by
  have hwf : i.wellFormed = true := by obtain rfl | rfl := hi <;> rfl
  have hreads : i.readsChar := by obtain rfl | rfl := hi <;> simp [Instr.readsChar]
  rw [encodedInstructionRuns s i hs hdev hwf hcell, State.arrive_of_nil harr,
    inputRoutinesWait i (s.setPc (s.pc + 1)) hreads hinq]
  simp

/-- GETC and IN with input take its head into R0 and leave pc incremented and the core RUNNING. -/
theorem exec_readsChar {s : State} {i : Instr} (hi : i = .getc ∨ i = .inChar) {c : Byte} {rest : List Byte}
    (h : s.inq = c :: rest) :
    ∃ t, exec i s = .next t ∧ t.x .r0 = c.zeroExtend 16 ∧ t.inq = rest ∧ t.pc = s.pc ∧ t.run = s.run := by
  obtain rfl | rfl := hi
  · obtain ⟨t, ht, hr0, -, hinq, -, -, -, -, hpc, -, -, hrun, -⟩ := getcResult s c rest h
    exact ⟨t, ht, hr0, hinq, hpc, hrun⟩
  · obtain ⟨t, ht, hr0, -, hinq, -, -, -, -, hpc, -, -, hrun, -⟩ := inResult s c rest h
    exact ⟨t, ht, hr0, hinq, hpc, hrun⟩

/-- Settles O19: the state waits in itself, and with a byte delivered the same instruction completes. -/
theorem stuckUntilInput : Obligations.StuckUntilInput := by
  intro s i hi hs hdev hcell hinq harr
  refine ⟨run_of_step_self (step_waits hi hs hdev hcell hinq harr), fun c bs => ?_⟩
  have hwf : i.wellFormed = true := by obtain rfl | rfl := hi <;> rfl
  have hstep := encodedInstructionRuns (s.deliver (c :: bs)) i hs hdev hwf hcell
  rw [State.arrive_of_nil (s := s.deliver (c :: bs)) harr] at hstep
  have hdelivered : ((s.deliver (c :: bs)).setPc (s.pc + 1)).inq = c :: bs := by simp [hinq]
  obtain ⟨t, ht, hr0, hrest, hpc, hrun⟩ := exec_readsChar hi hdelivered
  exact ⟨t, hstep.trans ht, hr0, hrest, hpc, hrun.trans hs⟩

/-- R35, log entry 18: what arrives is the head of the schedule. -/
theorem State.arrive_streams (s : State) :
    s.arrive.inq = s.inq ++ s.arrivals.headD [] ∧ s.arrive.arrivals = s.arrivals.tail := by
  obtain ⟨harr, he⟩ | ⟨bs, rest, harr, he⟩ := s.arrive_cases <;> rw [he, harr]
  · simp
  · simp

/-- What a fetch and the instruction after it keep: the parameters, the schedule, the end of the input, the front of the
output. -/
theorem fetch_exec_keeps {s u t : State} {ir : Word} {i : Instr} (hf : s.fetch = some (ir, u))
    (h : exec i u = .next t) :
    t.cfg = s.cfg ∧ t.arrivals = s.arrivals ∧ (∃ used, s.inq = used ++ t.inq) ∧
      ∃ written, t.out = s.out ++ written := by
  obtain ⟨v, hread, rfl⟩ := State.fetch_some hf
  obtain ⟨-, -, -, -, hcfg, hout, harr, ⟨used, hinq⟩, -⟩ := State.memRead_frame hread
  obtain ⟨rfl, -⟩ | hc := exec_cases h
  · exact ⟨hcfg, harr, ⟨used, hinq⟩, [], by simp [hout]⟩
  · obtain ⟨hcfg', harr', ⟨used', hinq'⟩, written, hout'⟩ := hc.keeps
    simp only [State.setPc_cfg, State.setPc_arrivals, State.setPc_inq, State.setPc_out] at hcfg' harr' hinq' hout'
    exact ⟨hcfg'.trans hcfg, harr'.trans harr, ⟨used ++ used', by rw [hinq, hinq', List.append_assoc]⟩,
      written, by rw [hout', hout]⟩

/-- Settles O20: the arrival moves the head of the schedule to the end of the input, and the rest of the step takes from
the front. -/
theorem streamsMoveOneWay : Obligations.StreamsMoveOneWay := by
  intro s t hs h
  obtain ⟨hinq, harr⟩ := s.arrive_streams
  have hkeeps : t.cfg = s.arrive.cfg ∧ t.arrivals = s.arrive.arrivals ∧ (∃ used, s.arrive.inq = used ++ t.inq) ∧
      ∃ written, t.out = s.arrive.out ++ written := by
    cases hf : s.arrive.fetch with
    | none =>
      rw [step_of_no_fetch hs hf] at h
      cases h
      exact ⟨rfl, rfl, ⟨[], rfl⟩, [], (List.append_nil _).symm⟩
    | some p =>
      rw [step_of_fetch hs hf] at h
      exact fetch_exec_keeps hf h
  obtain ⟨hcfg', harr', hinq', hout'⟩ := hkeeps
  rw [← hinq, ← harr, ← s.arrive_out, ← s.arrive_cfg]
  exact ⟨hinq', hout', harr', hcfg'⟩

/-! Whole steps of the PC-relative instructions. -/

/-- Settles O34: the instruction at A executes with pc holding A + 1. -/
theorem pcRelativeBase : Obligations.PcRelativeBase := by
  intro s u hs hdev hu
  have hstep : ∀ i : Instr, i.wellFormed = true → s.cell s.pc = encode i → step s = exec i u := fun i hwf hcell =>
    (encodedInstructionRuns s i hs hdev hwf hcell).trans (by rw [hu])
  have hpc : u.pc = s.pc + 1 := by rw [hu, State.setPc_pc]
  have hx : ∀ r, u.x r = s.x r := fun r => by rw [hu, State.x_setPc, State.arrive_x]
  have hcond : u.cond = s.cond := by rw [hu, State.setPc_cond, State.arrive_cond]
  rw [← hpc]
  refine ⟨fun n z p off hcell hb => ?_, fun off hcell => ?_, fun d off hcell hin => ?_, fun d off hcell hin => ?_,
    fun d off hcell => ?_, fun r off hcell => ?_, fun r off hcell hin => ?_⟩ <;> have hstep := hstep _ rfl hcell
  · rw [exec_br, hcond, if_pos hb] at hstep
    exact ⟨_, hstep, rfl⟩
  · obtain ⟨-, hjsr, -⟩ := jumpAndLink u
    obtain ⟨t, ht, -, htpc, -⟩ := hjsr off
    exact ⟨t, hstep.trans ht, htpc⟩
  · obtain ⟨hld, -⟩ := loadResult u
    obtain ⟨w, v, t, ht, hread, hres, -⟩ := hld d off hin
    exact ⟨w, v, t, hread, hstep.trans ht, hres⟩
  · obtain ⟨ea, v, hptr, hdatum⟩ := loadIndirectResult u d off hin
    refine ⟨ea, v, hptr, fun hin' => ?_⟩
    obtain ⟨w, v', t, ht, hread, hres, -⟩ := hdatum hin'
    exact ⟨w, v', t, hread, hstep.trans ht, hres⟩
  · obtain ⟨t, ht, hres, -⟩ := leaResult u d off
    exact ⟨t, hstep.trans ht, hres⟩
  · obtain ⟨hst, -⟩ := storeResult u
    obtain ⟨t, ht, hcellt, -⟩ := hst r off
    exact ⟨t, hstep.trans ht, hcellt.trans (hx r)⟩
  · obtain ⟨ea, v, t, hptr, ht, hcellt, -⟩ := storeIndirectResult u r off hin
    exact ⟨ea, v, t, hptr, hstep.trans ht, hcellt.trans (hx r)⟩

/-- Settles O41: the Word stored at the next address is the one the next step reads there. -/
theorem storeSeenByNextFetch : Obligations.StoreSeenByNextFetch := by
  intro s r hs hdev hdev' hcell
  have hstep := encodedInstructionRuns s (.st r 0) hs hdev rfl hcell
  obtain ⟨hst, -⟩ := storeResult (s.arrive.setPc (s.pc + 1))
  obtain ⟨t, ht, hcellt, -, -, -, hpc, -, hrun, hcfg⟩ := hst r 0
  have hcellt : t.cell (s.pc + 1) = s.x r := by simpa using hcellt
  have hrun : t.run = .running := by simpa [hs] using hrun
  have hcfg : t.cfg = s.cfg := by simpa using hcfg
  have hpc : t.pc = s.pc + 1 := hpc
  have hnext := step_plain hrun (by rwa [State.isDevice, hcfg, hpc])
  refine ⟨t, hstep.trans ht, hpc, ?_⟩
  rw [hnext, hpc, hcellt, BitVec.add_assoc]
  rfl

end Sys2Proof.Machine
end

section
/-! PROOF. R250 to R257: the state after reset, an image loaded, a boot of several, and a boot that is refused. -/

namespace Sys2Proof.Machine

theorem State.resetWith_x (c : Config) (r : Reg) : (State.resetWith c).x r = c.resetGpr := by
  cases r <;> rfl

/-- Settles O55: memory lists nothing and every register is `RESET_GPR`. -/
theorem resetValues : Obligations.ResetValues :=
  ⟨fun c => ⟨rfl, rfl, rfl, rfl, rfl, rfl, State.resetWith_x c, State.cell_reset c⟩, rfl,
    State.resetWith_x Config.default, State.cell_reset Config.default⟩

/-! One image. -/

section
variable {s t : State} {img : Image}

theorem State.load_of_fits (h : img.base.toNat + img.words.length ≤ 65536) :
    s.load img = .ok (s.loadWords img.base img.words) := if_pos h

theorem State.load_of_not_fits (h : 65536 < img.base.toNat + img.words.length) :
    s.load img = .error .imagePastEnd := if_neg (Nat.not_le.2 h)

/-- R257: only an image that fits is loaded. -/
theorem State.fits_of_load (h : s.load img = .ok t) : img.base.toNat + img.words.length ≤ 65536 := by
  by_contra hfit
  rw [State.load_of_not_fits (Nat.not_le.1 hfit)] at h
  cases h

/-- R254: an image loaded stands at its base, over a memory otherwise as it was. -/
theorem State.load_cell (h : s.load img = .ok t) :
    (∀ i, ∀ h : i < img.words.length, t.cell (img.base + BitVec.ofNat 16 i) = img.words[i]) ∧
      ∀ a : Word, img.words.length ≤ (a - img.base).toNat → t.cell a = s.cell a := by
  have hfit := State.fits_of_load h
  rw [State.load_of_fits hfit] at h
  cases h
  exact State.loadWords_cell img.words s img.base (by omega)

end

/-- Settles O56: an image that fits is loaded Word by Word, and loading changes memory alone. -/
theorem loadPlacesImage : Obligations.LoadPlacesImage := by
  intro s img
  refine ⟨fun hfit => ?_, State.load_of_not_fits⟩
  have hload := State.load_of_fits (s := s) hfit
  obtain ⟨hwords, hothers⟩ := State.load_cell hload
  obtain ⟨m, he, -⟩ := State.loadWords_frame img.words s img.base
  refine ⟨_, hload, hwords, hothers, ?_⟩
  rw [he]
  exact ⟨fun _ _ => rfl, rfl, rfl, ⟨rfl, rfl, rfl⟩, rfl, rfl⟩

/-! Several images. -/

/-- R255: a boot that ends with an image is a boot of the images before it, or a reset, and the load of that image. -/
theorem State.boot_append_eq_ok {s t : State} {imgs : List Image} {img : Image} (h : s.boot (imgs ++ [img]) = .ok t) :
    ∃ u, s.hostReset.loadAll imgs = .ok u ∧ u.load img = .ok t := by
  obtain ⟨-, hload⟩ := State.boot_eq_ok.1 h
  rw [State.loadAll_append] at hload
  cases hu : s.hostReset.loadAll imgs with
  | error e => rw [hu] at hload; cases hload
  | ok u => rw [hu] at hload; exact ⟨u, rfl, hload⟩

/-- R250: after a boot all but the memory is as a reset leaves it, and the invariant holds. -/
theorem State.boot_frame {s t : State} {imgs : List Image} (h : s.boot imgs = .ok t) :
    ∃ m, t = { s.hostReset with mem := m } ∧ Memory.wf s.cfg.resetMemFill m := by
  obtain ⟨-, hload⟩ := State.boot_eq_ok.1 h
  obtain ⟨m, ht, hwf⟩ := State.loadAll_frame imgs s.hostReset t hload
  exact ⟨m, ht, hwf (Memory.wf_nil _)⟩

/-- Settles O57: a boot is a reset and the loading of all images, the last over what the others left. -/
theorem bootLoadsInOrder : Obligations.BootLoadsInOrder := by
  intro s
  refine ⟨rfl, fun imgs hne hfit => ?_, fun imgs img t h => ?_⟩
  · obtain ⟨t, ht⟩ := State.loadAll_fits hfit s.hostReset
    exact ⟨t, State.boot_eq_ok.2 ⟨hne, ht⟩⟩
  · obtain ⟨u, hu, hload⟩ := State.boot_append_eq_ok h
    obtain ⟨hwords, hothers⟩ := State.load_cell hload
    have hcells : ∀ a : Word, img.words.length ≤ (a - img.base).toNat →
        (imgs = [] → t.cell a = s.cfg.resetMemFill) ∧ (imgs ≠ [] → ∃ u, s.boot imgs = .ok u ∧ t.cell a = u.cell a) := by
      intro a ha
      refine ⟨fun hnil => ?_, fun hne => ⟨u, State.boot_eq_ok.2 ⟨hne, hu⟩, hothers a ha⟩⟩
      subst hnil
      cases hu
      exact hothers a ha
    obtain ⟨m, rfl, hwf⟩ := State.boot_frame h
    exact ⟨rfl, rfl, rfl, rfl, rfl, rfl, rfl, State.resetWith_x s.cfg, hwords, hcells, fun hc => ⟨hc, hwf⟩⟩

/-! A refused image. -/

/-- R257, log entry 24: a refused image stops the loading. -/
theorem State.loadAll_refused {s t : State} {imgs : List Image} {img : Image} {e : BootFailure}
    (h : s.loadAll imgs = .ok t) (he : t.load img = .error e) (rest : List Image) :
    s.loadAll (imgs ++ img :: rest) = .error e := by
  induction imgs generalizing s with
  | nil => cases h; simp [State.loadAll, he]
  | cons x imgs ih =>
    cases hx : s.load x with
    | error e' => simp [State.loadAll, hx] at h
    | ok u =>
      simp only [State.loadAll, hx, List.cons_append] at h ⊢
      exact ih h

/-- A boot whose first image loads goes on as the loading of all. -/
theorem State.boot_eq_loadAll {s t : State} {x : Image} (hx : s.hostReset.load x = .ok t) (imgs : List Image) :
    s.boot (x :: imgs) = s.hostReset.loadAll (x :: imgs) := by
  simp only [State.boot, State.loadAll, hx]

/-- Settles O58: a refused first image is no image loaded; a refused later one stops the loading. -/
theorem refusedImageStopsBoot : Obligations.RefusedImageStopsBoot := by
  intro s img hpast
  refine ⟨fun imgs => ?_, fun imgs t h rest => ?_⟩
  · simp only [State.boot, State.load_of_not_fits hpast]
  · obtain ⟨hne, hload⟩ := State.boot_eq_ok.1 h
    obtain ⟨x, xs, rfl⟩ := List.exists_cons_of_ne_nil hne
    cases hx : s.hostReset.load x with
    | error e => simp [State.loadAll, hx] at hload
    | ok u =>
      rw [List.cons_append, State.boot_eq_loadAll hx]
      exact State.loadAll_refused hload (State.load_of_not_fits hpast) rest

end Sys2Proof.Machine
end
